-- ==== Sys2Proof/Word.lean ====
section
/-! DEFINITION. The words that cross the block's ports and the named values its state is made of
(00_scope.md R9, R13; 30_encoding.md R81, R86, R88; 40_primitives.md R100, R102; 60_exceptions.md R230). -/

namespace Sys2Proof

/-- A command word, cmd_data (R81). -/
abbrev CmdWord := BitVec 64

/-- A response word, rsp_data (R88). -/
abbrev RspWord := BitVec 3

/-- The pc operand of PREDICT and TRAIN, an index into a table, and a mask (R10, R21, R61). -/
abbrev Word := BitVec 32

/-- A width register or width field: G, L or P (R24, R82). -/
abbrev Width := BitVec 6

/-- A history of outcomes, the newest at bit 0: GHR, and one entry of LHT (R26, R28). -/
abbrev History := BitVec 32

/-- An outcome or a prediction (R13). -/
inductive Outcome
  | notTaken
  | taken
deriving DecidableEq, Repr, Inhabited

/-- The four predictor variants, the values of CFG_MODE (R2, R23). -/
inductive Mode
  | static
  | gshare
  | tournament
  | perceptron
deriving DecidableEq, Repr, Inhabited

/-- A saturating-counter state (R100). -/
inductive Counter
  /-- StronglyNotTaken. -/
  | SN
  /-- WeaklyNotTaken. -/
  | WN
  /-- WeaklyTaken. -/
  | WT
  /-- StronglyTaken. -/
  | ST
deriving DecidableEq, Repr, Inhabited

/-- A choice state of the tournament predictor (R102). -/
inductive Choice
  /-- Strong local. -/
  | SL
  /-- Weak local. -/
  | WL
  /-- Weak global. -/
  | WG
  /-- Strong global. -/
  | SG
deriving DecidableEq, Repr, Inhabited

/-- The STATUS of a response (R230). -/
inductive Status
  | ok
  | cfgErr
  | notInit
  | illegal
deriving DecidableEq, Repr, Inhabited

end Sys2Proof
end

