-- ==== Sys2Proof/Syntax.lean ====
section
/-! DEFINITION. The commands: one constructor for each row of spec/opcode_table.json (30_encoding.md R82, R83, R90). -/

namespace Sys2Proof

/-- A command the decoder can read from a word. The four known values of MODE are four rows of the table, and so
four constructors; the fields g, l and p are the 6-bit fields as encoded, legal or not (R82). -/
inductive Instr
  /-- INIT with MODE = 0 (R120). -/
  | initStatic (g l p : Width)
  /-- INIT with MODE = 1 (R120). -/
  | initGshare (g l p : Width)
  /-- INIT with MODE = 2 (R120). -/
  | initTournament (g l p : Width)
  /-- INIT with MODE = 3 (R120). -/
  | initPerceptron (g l p : Width)
  /-- INIT with an unknown MODE, 4..7 (R122). -/
  | initUnknownMode (mode : BitVec 3) (g l p : Width)
  /-- PREDICT (R125). -/
  | predict (pc : Word)
  /-- TRAIN (R125). -/
  | train (pc : Word) (out : Outcome)
  /-- The reserved encoding OP = 0b11, with whatever the other 62 bits hold (R89, R233). -/
  | reservedOp (rest : BitVec 62)
deriving DecidableEq, Repr

end Sys2Proof
end

