-- ==== Sys2Proof/WellFormed.lean ====
section
/-! DEFINITION. Which terms of `Instr` stand for a word of the table's row they name. -/

namespace Sys2Proof

/-- The unknown-mode row holds MODE = 4..7 only (R86, R122); every other field may hold every value of its width
(R82 to R84), the illegal widths 33..63 included, which INIT itself refuses (R90). -/
def Instr.wellFormed : Instr → Bool
  | .initStatic _ _ _ => true
  | .initGshare _ _ _ => true
  | .initTournament _ _ _ => true
  | .initPerceptron _ _ _ => true
  | .initUnknownMode mode _ _ _ => decide (4 ≤ mode.toNat)
  | .predict _ => true
  | .train _ _ => true
  | .reservedOp _ => true

end Sys2Proof
end

