-- ==== Sys2Proof/Decode.lean ====
section
/-! DEFINITION. The decoder, total on every 64-bit word and rejecting by name; the encoder; the opcode table's
rows; and the word a host test names by the table's bit numbers (30_encoding.md R81 to R90). -/

namespace Sys2Proof

/-- Taken = 1, NotTaken = 0 (R13, R85). -/
def outcomeBit : Outcome → BitVec 1
  | .notTaken => 0#1
  | .taken => 1#1

/-- The outcome a bit stands for (R13, R85). -/
def outcomeOfBit (b : BitVec 1) : Outcome := if b = 1#1 then .taken else .notTaken

/-- The MODE field of each variant (R86). -/
def modeBits : Mode → BitVec 3
  | .static => 0b000#3
  | .gshare => 0b001#3
  | .tournament => 0b010#3
  | .perceptron => 0b011#3

/-- The variant a MODE field names; none for the unknown modes 4..7 (R86). -/
def modeOfBits (b : BitVec 3) : Option Mode :=
  if b = 0b000#3 then some .static
  else if b = 0b001#3 then some .gshare
  else if b = 0b010#3 then some .tournament
  else if b = 0b011#3 then some .perceptron
  else none

/-- Why the decoder rejects a word that matches no row of the table: a 1 in the format's RSVD field (R89). -/
inductive IllegalReason
  /-- INIT with a 1 in bits 63:23. -/
  | initReserved
  /-- PREDICT with a 1 in bits 31:2. -/
  | predictReserved
  /-- TRAIN with a 1 in bits 31:3. -/
  | trainReserved
deriving DecidableEq, Repr

/-- What the decoder answers. -/
inductive Decoded
  | instr (i : Instr)
  | illegal (r : IllegalReason)
deriving DecidableEq, Repr

/-- OP, cmd_data[1:0] (R81). -/
def opField (w : CmdWord) : BitVec 2 := w.extractLsb' 0 2

/-- The operands of format I (R82, R84). -/
def modeField (w : CmdWord) : BitVec 3 := w.extractLsb' 2 3
def gField (w : CmdWord) : Width := w.extractLsb' 5 6
def lField (w : CmdWord) : Width := w.extractLsb' 11 6
def pField (w : CmdWord) : Width := w.extractLsb' 17 6

/-- The operands of format B (R83, R84). -/
def outField (w : CmdWord) : BitVec 1 := w.extractLsb' 2 1
def pcField (w : CmdWord) : Word := w.extractLsb' 32 32

/-- An INIT word whose RSVD field is 0: MODE selects the row of the table (R86, R90). The decoder checks neither
that MODE is known nor that the widths are legal (R90). -/
def decodeInit (mode : BitVec 3) (g l p : Width) : Instr :=
  match modeOfBits mode with
  | some .static => .initStatic g l p
  | some .gshare => .initGshare g l p
  | some .tournament => .initTournament g l p
  | some .perceptron => .initPerceptron g l p
  | none => .initUnknownMode mode g l p

/-- The decoder of R90, over all 2^64 words. -/
def decode (w : CmdWord) : Decoded :=
  if opField w = 0b00#2 then
    if w.extractLsb' 23 41 = 0#41 then .instr (decodeInit (modeField w) (gField w) (lField w) (pField w))
    else .illegal .initReserved
  else if opField w = 0b01#2 then
    if w.extractLsb' 2 30 = 0#30 then .instr (.predict (pcField w)) else .illegal .predictReserved
  else if opField w = 0b10#2 then
    if w.extractLsb' 3 29 = 0#29 then .instr (.train (pcField w) (outcomeOfBit (outField w)))
    else .illegal .trainReserved
  else .instr (.reservedOp (w.extractLsb' 2 62))

/-- The instruction of a decoder's answer, none where it rejects the word. -/
def Decoded.instr? : Decoded → Option Instr
  | .instr i => some i
  | .illegal _ => none

/-- A format I word (R82): RSVD, P, L, G, MODE, OP from bit 63 down. -/
def encodeInit (mode : BitVec 3) (g l p : Width) : CmdWord :=
  0#41 ++ p ++ l ++ g ++ mode ++ 0b00#2

/-- The word of a command, from the layouts of R82 and R83. -/
def encode : Instr → CmdWord
  | .initStatic g l p => encodeInit (modeBits .static) g l p
  | .initGshare g l p => encodeInit (modeBits .gshare) g l p
  | .initTournament g l p => encodeInit (modeBits .tournament) g l p
  | .initPerceptron g l p => encodeInit (modeBits .perceptron) g l p
  | .initUnknownMode mode g l p => encodeInit mode g l p
  | .predict pc => pc ++ 0#30 ++ 0b01#2
  | .train pc out => pc ++ 0#29 ++ outcomeBit out ++ 0b10#2
  | .reservedOp rest => rest ++ 0b11#2

/-- A row of the opcode map: a word w is in the row when `w AND mask = match` (R90). -/
structure OpcodeRow where
  mask : CmdWord
  value : CmdWord
deriving DecidableEq, Repr

/-- The match and mask pairs of R90, in its order. -/
def opcodeRows : List OpcodeRow :=
  [ ⟨0xFFFFFFFFFF80001F#64, 0x0000000000000000#64⟩,
    ⟨0xFFFFFFFFFF80001F#64, 0x0000000000000004#64⟩,
    ⟨0xFFFFFFFFFF80001F#64, 0x0000000000000008#64⟩,
    ⟨0xFFFFFFFFFF80001F#64, 0x000000000000000C#64⟩,
    ⟨0xFFFFFFFFFF800013#64, 0x0000000000000010#64⟩,
    ⟨0x00000000FFFFFFFF#64, 0x0000000000000001#64⟩,
    ⟨0x00000000FFFFFFFB#64, 0x0000000000000002#64⟩,
    ⟨0x0000000000000003#64, 0x0000000000000003#64⟩ ]

/-- The place in `opcodeRows` of the row an instruction belongs to (R90). -/
def rowIndex : Instr → Nat
  | .initStatic _ _ _ => 0
  | .initGshare _ _ _ => 1
  | .initTournament _ _ _ => 2
  | .initPerceptron _ _ _ => 3
  | .initUnknownMode _ _ _ _ => 4
  | .predict _ => 5
  | .train _ _ => 6
  | .reservedOp _ => 7

/-- Whether a word is in a row (R90). -/
def OpcodeRow.contains (r : OpcodeRow) (w : CmdWord) : Bool := decide (w &&& r.mask = r.value)

/-- The command word whose low `nbits` bits are those of w and whose other bits are 0. Command words cross the
port whole (R63), so there are no bytes to lay out. -/
def tableWord (nbits w : Nat) : CmdWord := BitVec.ofNat 64 (w % 2 ^ nbits)

/-- The instruction this decoder reads from an instruction given by the opcode table's bit numbers. -/
def decodeTableWord (nbits w : Nat) : Option Instr := (decode (tableWord nbits w)).instr?

end Sys2Proof
end

