-- ==== Sys2Proof/Config.lean ====
section
/-! DEFINITION. The build parameters of 00_scope.md R7, fixed for the life of the block, and the free values
the spec leaves open. No command can read them (R8). -/

namespace Sys2Proof

/-- The number no maximum of a build exceeds (R6, R7), and so the most weights a vector of PWT has. -/
abbrev Config.WIDTH_BOUND : Nat := 32

/-- One vector of PWT, weight 0 the bias weight (R32). A weight is the integer its WBITS bits of two's complement stand for
(R11); that it fits in WBITS bits is the invariant of R32, as WBITS is a parameter of the build. The weights past a build's
G_MAX do not exist: they stay 0. -/
abbrev WeightVec := Vector Int Config.WIDTH_BOUND

/-- The build parameters (R7), as an argument of the machine (R7, R8, R20), with the constraints R7 puts on them. -/
structure Build where
  /-- G_MAX, the largest G an INIT accepts. -/
  gMax : Nat
  /-- L_MAX, the largest L an INIT accepts. -/
  lMax : Nat
  /-- P_MAX, the largest P an INIT accepts. -/
  pMax : Nat
  /-- THETA, the perceptron threshold. -/
  theta : Int
  /-- WBITS, the width of one perceptron weight. -/
  wbits : Nat
  /-- PERC_HSEED, what a PERCEPTRON INIT loads into GHR, before masking. -/
  percHseed : History
  /-- ACC_BITS, the width of the dot-product accumulator. -/
  accBits : Nat
  gMax_le : gMax ≤ Config.WIDTH_BOUND
  lMax_le : lMax ≤ Config.WIDTH_BOUND
  pMax_le : pMax ≤ Config.WIDTH_BOUND
  wbits_ge : 2 ≤ wbits
  percHseed_lt : percHseed.toNat < 2 ^ gMax
  accBits_ge : wbits + 5 ≤ accBits
deriving DecidableEq, Repr

/-- THETA of this hardware: OPEN in the spec (R7, R209, D17, U6), so a free value. Log 7. -/
opaque Config.THETA : Int

/-- This hardware's build (the third column of R7). -/
def Config.build : Build where
  gMax := 32
  lMax := 32
  pMax := 32
  theta := Config.THETA
  wbits := 8
  percHseed := 0#32
  accBits := 13
  gMax_le := by decide
  lMax_le := by decide
  pMax_le := by decide
  wbits_ge := by decide
  percHseed_lt := by decide
  accBits_ge := by decide

/-- What PHT holds after the n-th command that rst abandons, as entries to write: any value (U5). Log 6. -/
opaque Config.freePht : Nat → List (Word × Counter)

/-- What LHT holds after the n-th abandoned command (U5). Log 6. -/
opaque Config.freeLht : Nat → List (Word × History)

/-- What LPT holds after the n-th abandoned command (U5). Log 6. -/
opaque Config.freeLpt : Nat → List (Word × Counter)

/-- What GPT holds after the n-th abandoned command (U5). Log 6. -/
opaque Config.freeGpt : Nat → List (Word × Counter)

/-- What CHT holds after the n-th abandoned command (U5). Log 6. -/
opaque Config.freeCht : Nat → List (Word × Choice)

/-- What PWT holds after the n-th abandoned command (U5). Log 6. -/
opaque Config.freePwt : Nat → List (Word × WeightVec)

end Sys2Proof
end

