-- ==== Sys2Proof/Machine/State.lean ====
section
/-! DEFINITION. The state of the block as plain data (10_state.md R20), its ports (30_encoding.md R80), the
records the spec asks a model to keep (R37, 60_exceptions.md R236), and the state right after reset. -/

namespace Sys2Proof.Machine

/-- A table as its entries that differ from the value an unlisted index reads as, by strictly rising index. -/
abbrev Table (α : Type) := List (Nat × α)

/-- The architectural state: exactly the items of R20. -/
structure Block where
  /-- CFG_VALID (R22). -/
  cfgValid : Bool
  /-- CFG_MODE (R23). -/
  cfgMode : Mode
  /-- CFG_G (R24). -/
  cfgG : Width
  /-- CFG_L (R24). -/
  cfgL : Width
  /-- CFG_P (R24). -/
  cfgP : Width
  /-- GHR (R26). -/
  ghr : History
  /-- PHT (R27). -/
  pht : Table Counter
  /-- LHT (R28). -/
  lht : Table History
  /-- LPT (R29). -/
  lpt : Table Counter
  /-- GPT (R30). -/
  gpt : Table Counter
  /-- CHT (R31). -/
  cht : Table Choice
  /-- PWT (R32). -/
  pwt : Table WeightVec
deriving DecidableEq, Repr

/-- What the host does at the block's inputs (R80, R260). -/
inductive HostInput
  /-- It presents a command word and lets it complete. -/
  | command (w : CmdWord)
  /-- It asserts rst with no command in flight. -/
  | rst
  /-- It presents a command word and asserts rst before the response (R260, U5). -/
  | commandThenRst (w : CmdWord)
deriving DecidableEq, Repr

/-- The sticky error record: the first non-OK response of a run and the index of its command, the first command
of the run having index 1 (R236). Log 9. -/
structure ErrorRecord where
  index : Nat
  status : Status
deriving DecidableEq, Repr

/-- The machine: the block, its ports, and the model's records. -/
structure State where
  /-- The architectural state (R20). -/
  block : Block
  /-- What the host will present, the next input first (R80). Log 2. -/
  host : List HostInput
  /-- The response port: rsp_data while rsp_valid is 1, none while it is 0 (R80). Log 1. -/
  rsp : Option RspWord
  /-- The observation: every response so far, the oldest first (R37). Log 1. -/
  trace : List RspWord
  /-- The number of commands accepted so far, which gives R236 its index. Log 9. -/
  accepted : Nat
  /-- The sticky error record (R236). Log 9. -/
  firstError : Option ErrorRecord
  /-- The number of the next set of free values (U5). The model's own field. Log 6. -/
  freeCount : Nat
deriving DecidableEq, Repr

/-- Why a step could stop with a fault: there is no reason. The spec has no trap and no stuck state: every error
is an in-band response after which the machine goes on (R234, R238), so nobody raises a fault, which is safe. -/
inductive Fault
deriving DecidableEq, Repr

/-- Why a step could be refused. -/
inductive Refusal
  /-- Raised by `exec` for an instruction that has no meaning yet, by its mnemonic. Safe: the machine stops. No
  arm raises it. -/
  | notModelled (mnemonic : String)
deriving DecidableEq, Repr

/-- What the block's registers hold after the hardware reset (R38, R260). The tables are unspecified then; the
model lists nothing, so that an entry reads as its INIT value (log 4). -/
def Block.reset : Block where
  cfgValid := false
  cfgMode := .static
  cfgG := 0#6
  cfgL := 0#6
  cfgP := 0#6
  ghr := 0#32
  pht := []
  lht := []
  lpt := []
  gpt := []
  cht := []
  pwt := []

/-- The machine right after reset (R38, R260), nothing presented and nothing answered yet (logs 1, 2, 6, 9). -/
def State.reset : State where
  block := Block.reset
  host := []
  rsp := none
  trace := []
  accepted := 0
  firstError := none
  freeCount := 0

end Sys2Proof.Machine
end

