-- ==== Sys2Proof/Machine/Operands.lean ====
section
/-! DEFINITION. What the operands of the commands select: masks, the table indices of each mode and the
perceptron's history vector (00_scope.md R10; 20_memory.md R61; 43_gshare.md R152; 45_perceptron.md R200). -/

namespace Sys2Proof.Machine

/-- mask(w) = 2^w - 1, in 32 bits (R10). A width register holds at most 32; above that every bit is 1. -/
def mask (w : Width) : Word := BitVec.ofNat 32 (2 ^ w.toNat - 1)

/-- The Gshare index, with GHR as it stands (R152). -/
def gshareIndex (b : Block) (pc : Word) : Word := b.ghr ^^^ (pc &&& mask b.cfgG)

/-- The index of LHT and of PWT: pc masked to P bits (R176, R201). -/
def pcIndex (b : Block) (pc : Word) : Word := pc &&& mask b.cfgP

/-- Entry i of the history vector, a view of GHR: +1 for the bias entry 0, and +1 or -1 as GHR bit i-1 is 1 or
0 (R200). -/
def historyEntry (ghr : History) : Nat → Int
  | 0 => 1
  | i + 1 => if ghr.getLsbD i then 1 else -1

/-- The perceptron's target: +1 for Taken, -1 for NotTaken (R202). -/
def target : Outcome → Int
  | .taken => 1
  | .notTaken => -1

end Sys2Proof.Machine
end

