-- ==== Sys2Proof/Machine/Counters.lean ====
section
/-! DEFINITION. The shared state machines, total functions without state: the saturating counter, the choice
counter, the history shift and the clipped weight step (40_primitives.md R100 to R108; 45_perceptron.md R205). -/

namespace Sys2Proof.Machine

/-- The encoding of a counter state (R100). -/
def counterBits : Counter → BitVec 2
  | .SN => 0b00#2
  | .WN => 0b01#2
  | .WT => 0b10#2
  | .ST => 0b11#2

/-- taken(c): Taken iff c is WeaklyTaken or StronglyTaken (R13, R100). -/
def taken : Counter → Outcome
  | .SN => .notTaken
  | .WN => .notTaken
  | .WT => .taken
  | .ST => .taken

/-- The counter transition, the complete table of R101. -/
def ctrNext : Counter → Outcome → Counter
  | .SN, .notTaken => .SN
  | .WN, .notTaken => .SN
  | .WT, .notTaken => .WN
  | .ST, .notTaken => .WT
  | .SN, .taken => .WN
  | .WN, .taken => .WT
  | .WT, .taken => .ST
  | .ST, .taken => .ST

/-- The encoding of a choice state (R102). -/
def choiceBits : Choice → BitVec 2
  | .SL => 0b00#2
  | .WL => 0b01#2
  | .WG => 0b10#2
  | .SG => 0b11#2

/-- favors_local(s): true iff s is SL or WL (R102). -/
def favorsLocal : Choice → Bool
  | .SL => true
  | .WL => true
  | .WG => false
  | .SG => false

/-- The choice transition, gOk saying that the global vote matched the outcome (the table of R103). -/
def choiceNext : Choice → Bool → Choice
  | .SG, true => .SG
  | .SG, false => .WG
  | .WG, true => .SG
  | .WG, false => .WL
  | .WL, true => .WG
  | .WL, false => .SL
  | .SL, true => .WL
  | .SL, false => .SL

/-- The history shift: the newest outcome enters at bit 0 and the result is masked to W bits (R104). -/
def hshift (h : History) (o : Outcome) (w : Width) : History :=
  ((h <<< 1) ||| (outcomeBit o).setWidth 32) &&& mask w

/-- clamp(v, lo, hi) (R11). -/
def clamp (v lo hi : Int) : Int := max lo (min hi v)

/-- WMIN, the least weight of WBITS bits (R32). -/
def wMin (wbits : Nat) : Int := -(2 ^ (wbits - 1))

/-- WMAX, the greatest weight of WBITS bits (R32). -/
def wMax (wbits : Nat) : Int := 2 ^ (wbits - 1) - 1

/-- The clip of an integer to WBITS bits of two's complement (R205). -/
def clipWeight (wbits : Nat) (v : Int) : Int := clamp v (wMin wbits) (wMax wbits)

/-- The clipped step of one weight by d: the exact sum, clipped (R205). -/
def weightStep (wbits : Nat) (w : Int) (d : Int) : Int := clipWeight wbits (w + d)

end Sys2Proof.Machine
end

