-- ==== Sys2Proof/Machine/Flags.lean ====
section
/-! DEFINITION. The block has no flags (10_state.md R25). What a command reports stands in the response word:
STATUS, PRED, and the sticky error record made from STATUS (30_encoding.md R88; 60_exceptions.md R230, R236). -/

namespace Sys2Proof.Machine

/-- The STATUS codes (R88, R230). -/
def statusBits : Status → BitVec 2
  | .ok => 0b00#2
  | .cfgErr => 0b01#2
  | .notInit => 0b10#2
  | .illegal => 0b11#2

/-- The response word: STATUS in bits 2:1, PRED in bit 0 (R88). -/
def rspWord (st : Status) (pred : Outcome) : RspWord := statusBits st ++ outcomeBit pred

/-- The sticky error record after command number n answers st: the first non-OK response stays (R236). -/
def recordError (e : Option ErrorRecord) (n : Nat) (st : Status) : Option ErrorRecord :=
  match e with
  | some r => some r
  | none => if st = .ok then none else some ⟨n, st⟩

end Sys2Proof.Machine
end

