-- ==== Sys2Proof/Machine/Ops.lean ====
section
/-! DEFINITION. The named operations: reading and writing a table, answering a command, reporting an error (the
block's only form of an exception, 60_exceptions.md R238), accepting a command, idling, and the hardware reset. -/

namespace Sys2Proof.Machine

/-! ### Tables (R12, R60, R61): index i reads as d where it is not listed. -/

/-- T[i]. -/
def readTable {α : Type} (d : α) : Table α → Nat → α
  | [], _ => d
  | (k, v) :: t, i => if i < k then d else if i = k then v else readTable d t i

/-- T[i] <- v, keeping the canonical form: writing d removes the entry. -/
def writeTable {α : Type} [DecidableEq α] (d : α) : Table α → Nat → α → Table α
  | [], i, v => if v = d then [] else [(i, v)]
  | (k, u) :: t, i, v =>
    if i < k then (if v = d then (k, u) :: t else (i, v) :: (k, u) :: t)
    else if i = k then (if v = d then t else (i, v) :: t)
    else (k, u) :: writeTable d t i v

/-- The canonical form from index lo on: indices strictly rising and below 2^32, no entry equal to d. -/
def tableWf {α : Type} [DecidableEq α] (d : α) : Nat → Table α → Bool
  | _, [] => true
  | lo, (k, v) :: t => decide (lo ≤ k) && decide (k < 2 ^ 32) && decide (v ≠ d) && tableWf d (k + 1) t

/-- The table that holds the given entries and d everywhere else. -/
def tableOf {α : Type} [DecidableEq α] (d : α) (entries : List (Word × α)) : Table α :=
  entries.foldl (fun t e => writeTable d t e.1.toNat e.2) []

/-- What an unlisted weight vector reads as, and its INIT value: every weight 0 (R32). -/
def zeroWeights : WeightVec := Vector.replicate Config.WIDTH_BOUND 0

/-- What an unlisted entry of each table reads as: its INIT value (R27 to R32), at reset a DESIGN CHOICE (log 4). -/
def readPht (b : Block) (i : Word) : Counter := readTable .WN b.pht i.toNat
def readLht (b : Block) (i : Word) : History := readTable 0#32 b.lht i.toNat
def readLpt (b : Block) (i : Word) : Counter := readTable .WN b.lpt i.toNat
def readGpt (b : Block) (i : Word) : Counter := readTable .WN b.gpt i.toNat
def readCht (b : Block) (i : Word) : Choice := readTable .WG b.cht i.toNat
def readPwt (b : Block) (i : Word) : WeightVec := readTable zeroWeights b.pwt i.toNat

def writePht (b : Block) (i : Word) (v : Counter) : Block := { b with pht := writeTable .WN b.pht i.toNat v }
def writeLht (b : Block) (i : Word) (v : History) : Block := { b with lht := writeTable 0#32 b.lht i.toNat v }
def writeLpt (b : Block) (i : Word) (v : Counter) : Block := { b with lpt := writeTable .WN b.lpt i.toNat v }
def writeGpt (b : Block) (i : Word) (v : Counter) : Block := { b with gpt := writeTable .WN b.gpt i.toNat v }
def writeCht (b : Block) (i : Word) (v : Choice) : Block := { b with cht := writeTable .WG b.cht i.toNat v }
def writePwt (b : Block) (i : Word) (v : WeightVec) : Block := { b with pwt := writeTable zeroWeights b.pwt i.toNat v }

/-- The block's memories, the six tables, are in canonical form. -/
def Memory.wf (b : Block) : Bool :=
  tableWf .WN 0 b.pht && tableWf 0#32 0 b.lht && tableWf .WN 0 b.lpt && tableWf .WN 0 b.gpt &&
    tableWf .WG 0 b.cht && tableWf zeroWeights 0 b.pwt

/-- GHR <- hshift(GHR, out, G) (R104, R151, R178, R206). -/
def shiftGhr (b : Block) (out : Outcome) : Block := { b with ghr := hshift b.ghr out b.cfgG }

/-! ### Responses. -/

/-- respond(status, pred): the command ends with one response (R12, R80, R88), which the observation and the sticky
error record take in (R37, R236). -/
def respond (st : Status) (pred : Outcome) (s : State) : State :=
  { s with
    rsp := some (rspWord st pred)
    trace := s.trace ++ [rspWord st pred]
    firstError := recordError s.firstError s.accepted st }

/-- raise <Error>: every error is this one in-band response with PRED = 0. Nothing is saved, no mode changes and
control goes nowhere, since the block has no trap (R12, R230, R238); the next command is performed normally, so
there is no return either (R239). -/
def raiseError (st : Status) (s : State) : State := respond st .notTaken s

/-- ILLEGAL: the error response, and no state of the block changes (R89, R233). -/
def illegalCommand (s : State) : State := raiseError .illegal s

/-- CFG_ERR: CFG_VALID <- 0, nothing else of the block is written, and the error response (R122, R231). -/
def configError (s : State) : State := raiseError .cfgErr { s with block := { s.block with cfgValid := false } }

/-- NOT_INIT: the error response, and no state of the block changes (R126, R232). -/
def notInitError (s : State) : State := raiseError .notInit s

/-! ### The ports. -/

/-- The host's next command is accepted: it leaves the host's list (R80). -/
def acceptCommand (rest : List HostInput) (s : State) : State :=
  { s with host := rest, accepted := s.accepted + 1 }

/-- Nothing is presented: the block holds its state (R243) and presents no response. -/
def idle (s : State) : State := { s with rsp := none }

/-- The registers the hardware reset clears; the tables are not changed (R260). -/
def resetRegisters (b : Block) : Block :=
  { b with cfgValid := false, cfgMode := .static, cfgG := 0#6, cfgL := 0#6, cfgP := 0#6, ghr := 0#32 }

/-- rst with no command in flight (R260). Log 5. -/
def hardwareReset (rest : List HostInput) (s : State) : State :=
  { s with block := resetRegisters s.block, host := rest, rsp := none }

/-- The entries of a table that has 2^width of them (R27 to R32). -/
def builtEntries {α : Type} (width : Nat) (entries : List (Word × α)) : List (Word × α) :=
  entries.filter fun e => decide (e.1.toNat < 2 ^ width)

/-- A vector as a build can hold it: G_MAX weights of WBITS bits (R32). -/
def builtWeights (bd : Build) (w : WeightVec) : WeightVec :=
  Vector.ofFn fun i : Fin Config.WIDTH_BOUND => if i.val < bd.gMax then clipWeight bd.wbits w[i] else 0

/-- The tables after the n-th abandoned command: any contents that the build's tables can hold, as free values (U5). -/
def freeTables (bd : Build) (n : Nat) (b : Block) : Block :=
  { b with
    pht := tableOf .WN (builtEntries bd.gMax (Config.freePht n))
    lht := tableOf 0#32 (builtEntries bd.pMax ((Config.freeLht n).map fun e => (e.1, e.2 &&& mask (BitVec.ofNat 6 bd.lMax))))
    lpt := tableOf .WN (builtEntries bd.lMax (Config.freeLpt n))
    gpt := tableOf .WN (builtEntries bd.gMax (Config.freeGpt n))
    cht := tableOf .WG (builtEntries bd.gMax (Config.freeCht n))
    pwt := tableOf zeroWeights (builtEntries bd.pMax ((Config.freePwt n).map fun e => (e.1, builtWeights bd e.2))) }

/-- rst while an accepted command is in flight: the command is abandoned and gets no response, the registers take
their reset values and the tables any value (R260, U5). Log 6. -/
def abandonCommand (bd : Build) (rest : List HostInput) (s : State) : State :=
  { s with
    block := resetRegisters (freeTables bd s.freeCount s.block)
    host := rest
    rsp := none
    accepted := s.accepted + 1
    freeCount := s.freeCount + 1 }

end Sys2Proof.Machine
end

