-- ==== Sys2Proof/Machine/Gshare.lean ====
section
/-! DEFINITION. GSHARE mode (43_gshare.md R150 to R152). -/

namespace Sys2Proof.Machine

/-- GSHARE_PREDICT (R150). -/
def gsharePredict (b : Block) (pc : Word) : Outcome := taken (readPht b (gshareIndex b pc))

/-- GSHARE_TRAIN: the index is formed from GHR before the shift (R151, R263). -/
def gshareTrain (b : Block) (pc : Word) (out : Outcome) : Block :=
  let i := gshareIndex b pc
  shiftGhr (writePht b i (ctrNext (readPht b i) out)) out

end Sys2Proof.Machine
end

