-- ==== Sys2Proof/Machine/Perceptron.lean ====
section
/-! DEFINITION. PERCEPTRON mode (45_perceptron.md R200 to R209). H is CFG_G. -/

namespace Sys2Proof.Machine

/-- Weight i of a vector; past its last weight, which no legal H reaches, a weight reads 0 (log 10). -/
def weightAt (w : WeightVec) (i : Nat) : Int := (w[i]?).getD 0

/-- Product i of the sum (R203). -/
def product (w : WeightVec) (ghr : History) (i : Nat) : Int := weightAt w i * historyEntry ghr i

/-- The dot product over [0, h), exact in the integers (R203). -/
def dot (w : WeightVec) (ghr : History) (h : Nat) : Int := ((List.range h).map (product w ghr)).sum

/-- The same sum as the hardware forms it, in an accumulator of n bits that wraps (R203). No command reads it: that it
gives the exact sum for every build's ACC_BITS is a claim. -/
def accumulate (n : Nat) (w : WeightVec) (ghr : History) (h : Nat) : BitVec n :=
  (List.range h).foldl (fun acc i => acc + BitVec.ofInt n (product w ghr i)) 0#n

/-- y of a pc, from the state as it stands (R201). -/
def percY (b : Block) (pc : Word) : Int := dot (readPwt b (pcIndex b pc)) b.ghr b.cfgG.toNat

/-- The prediction y stands for: Taken iff y is at least 0, the tie included (R201, R208). -/
def percOutcome (y : Int) : Outcome := if 0 ≤ y then .taken else .notTaken

/-- PERC_PREDICT (R201). -/
def percPredict (b : Block) (pc : Word) : Outcome := percOutcome (percY b pc)

/-- The training condition: mispredicted, or abs(y) at most THETA (R204). -/
def percTrains (theta y : Int) (out : Outcome) : Bool :=
  decide (percOutcome y ≠ out) || decide ((y.natAbs : Int) ≤ theta)

/-- The clipped learning update of weights 0 .. h-1; the others keep their values (R202, R205). -/
def updateWeights (wbits : Nat) (w : WeightVec) (ghr : History) (h : Nat) (out : Outcome) : WeightVec :=
  Vector.ofFn fun i : Fin Config.WIDTH_BOUND =>
    if i.val < h then weightStep wbits w[i] (target out * historyEntry ghr i.val) else w[i]

/-- The block with the weights of pc's vector trained where the condition holds (R202, R204, R205). -/
def trainWeights (bd : Build) (b : Block) (pc : Word) (out : Outcome) : Block :=
  let i := pcIndex b pc
  let w := updateWeights bd.wbits (readPwt b i) b.ghr b.cfgG.toNat out
  { b with pwt := if percTrains bd.theta (percY b pc) out then (writePwt b i w).pwt else b.pwt }

/-- PERC_TRAIN: y and the update use the pre-shift history vector, and the shift, unconditional, comes last
(R202, R206, R207). -/
def percTrain (bd : Build) (b : Block) (pc : Word) (out : Outcome) : Block :=
  shiftGhr (trainWeights bd b pc out) out

end Sys2Proof.Machine
end

