-- ==== Sys2Proof/Machine/Static.lean ====
section
/-! DEFINITION. STATIC mode (42_static.md R140, R141). -/

namespace Sys2Proof.Machine

/-- STATIC_PREDICT: always Taken (R140). -/
def staticPredict (_b : Block) (_pc : Word) : Outcome := .taken

/-- STATIC_TRAIN: no operation, GHR included (R141). -/
def staticTrain (b : Block) (_pc : Word) (_out : Outcome) : Block := b

end Sys2Proof.Machine
end

