-- ==== Sys2Proof/Machine/Tournament.lean ====
section
/-! DEFINITION. TOURNAMENT mode (44_tournament.md R170 to R178). -/

namespace Sys2Proof.Machine

/-- What TOURN_LOOKUP computes; transient, not state (R35, R176). -/
structure TournamentLookup where
  localIdx : Word
  localHist : History
  localVote : Counter
  gIdx : Word
  globalVote : Counter
  choice : Choice
deriving DecidableEq, Repr

/-- TOURN_LOOKUP(pc), from the state as it stands (R176). -/
def tournamentLookup (b : Block) (pc : Word) : TournamentLookup :=
  let localIdx := pcIndex b pc
  let localHist := readLht b localIdx
  { localIdx := localIdx
    localHist := localHist
    localVote := readLpt b localHist
    gIdx := b.ghr
    globalVote := readGpt b b.ghr
    choice := readCht b b.ghr }

/-- TOURN_PREDICT (R170). -/
def tournamentPredict (b : Block) (pc : Word) : Outcome :=
  let k := tournamentLookup b pc
  if favorsLocal k.choice then taken k.localVote else taken k.globalVote

/-- Step 4 of TOURN_TRAIN: CHT moves only when the pre-update votes disagree (R175). -/
def trainChoice (b : Block) (k : TournamentLookup) (out : Outcome) : Block :=
  if taken k.localVote = taken k.globalVote then b
  else writeCht b k.gIdx (choiceNext k.choice (decide (taken k.globalVote = out)))

/-- TOURN_TRAIN: the lookup comes before every write, and the steps follow in the fixed order (R171, R172). -/
def tournamentTrain (b : Block) (pc : Word) (out : Outcome) : Block :=
  let k := tournamentLookup b pc
  let b1 := writeLpt b k.localHist (ctrNext k.localVote out)
  let b2 := writeLht b1 k.localIdx (hshift k.localHist out b.cfgL)
  let b3 := writeGpt b2 k.gIdx (ctrNext k.globalVote out)
  shiftGhr (trainChoice b3 k out) out

end Sys2Proof.Machine
end

