-- ==== Sys2Proof/Machine/Command.lean ====
section
/-! DEFINITION. PREDICT, TRAIN and the reserved command (41_control.md R125 to R128; 60_exceptions.md R233). -/

namespace Sys2Proof.Machine

/-- The prediction of the active variant, CFG_MODE selecting it (R125). -/
def predictOutcome (b : Block) (pc : Word) : Outcome :=
  match b.cfgMode with
  | .static => staticPredict b pc
  | .gshare => gsharePredict b pc
  | .tournament => tournamentPredict b pc
  | .perceptron => percPredict b pc

/-- The block after the active variant trained on (pc, out) (R125). -/
def trainBlock (bd : Build) (b : Block) (pc : Word) (out : Outcome) : Block :=
  match b.cfgMode with
  | .static => staticTrain b pc out
  | .gshare => gshareTrain b pc out
  | .tournament => tournamentTrain b pc out
  | .perceptron => percTrain bd b pc out

/-- PREDICT(pc), the pseudocode of R125: it writes no state of the block (R127). -/
def predictCommand (pc : Word) (s : State) : State :=
  if s.block.cfgValid then respond .ok (predictOutcome s.block pc) s else notInitError s

/-- TRAIN(pc, out), the pseudocode of R125: everything is recomputed from the state and its own pc (R128). -/
def trainCommand (bd : Build) (pc : Word) (out : Outcome) (s : State) : State :=
  if s.block.cfgValid then respond .ok .notTaken { s with block := trainBlock bd s.block pc out }
  else notInitError s

/-- PREDICT (R125). -/
def execPredict (pc : Word) (s : State) : Host.Outcome State Fault Refusal := .next (predictCommand pc s)

/-- TRAIN (R125). -/
def execTrain (pc : Word) (out : Outcome) (s : State) : Host.Outcome State Fault Refusal :=
  .next (trainCommand Config.build pc out s)

/-- The reserved encoding OP = 0b11: ILLEGAL, whatever its other bits hold (R89, R233). -/
def execReservedOp (_rest : BitVec 62) (s : State) : Host.Outcome State Fault Refusal := .next (illegalCommand s)

end Sys2Proof.Machine
end

