-- ==== Sys2Proof/Machine/Init.lean ====
section
/-! DEFINITION. INIT (41_control.md R120 to R124): the five rows of the opcode table, over one shared operation. -/

namespace Sys2Proof.Machine

/-- The block after a successful INIT, whatever it held before: the configuration of the command, the INIT value of
GHR, and every table entry at its INIT value (R26 to R32, R121). -/
def configured (bd : Build) (m : Mode) (g l p : Width) : Block where
  cfgValid := true
  cfgMode := m
  cfgG := g
  cfgL := l
  cfgP := p
  ghr := if m = .perceptron then bd.percHseed &&& mask g else 0#32
  pht := []
  lht := []
  lpt := []
  gpt := []
  cht := []
  pwt := []

/-- Conditions (b) to (d) of R122 do not hold: every width is within its maximum, used by the mode or not (R87). -/
def widthsLegal (bd : Build) (g l p : Width) : Bool :=
  decide (g.toNat ≤ bd.gMax) && decide (l.toNat ≤ bd.lMax) && decide (p.toNat ≤ bd.pMax)

/-- INIT(mode, g, l, p), the pseudocode of R120. -/
def initCommand (bd : Build) (mode : BitVec 3) (g l p : Width) (s : State) : State :=
  match modeOfBits mode with
  | some m =>
    if widthsLegal bd g l p then respond .ok .notTaken { s with block := configured bd m g l p }
    else configError s
  | none => configError s

/-- INIT with MODE = STATIC (R120). -/
def execInitStatic (g l p : Width) (s : State) : Host.Outcome State Fault Refusal :=
  .next (initCommand Config.build (modeBits .static) g l p s)

/-- INIT with MODE = GSHARE (R120). -/
def execInitGshare (g l p : Width) (s : State) : Host.Outcome State Fault Refusal :=
  .next (initCommand Config.build (modeBits .gshare) g l p s)

/-- INIT with MODE = TOURNAMENT (R120). -/
def execInitTournament (g l p : Width) (s : State) : Host.Outcome State Fault Refusal :=
  .next (initCommand Config.build (modeBits .tournament) g l p s)

/-- INIT with MODE = PERCEPTRON (R120). -/
def execInitPerceptron (g l p : Width) (s : State) : Host.Outcome State Fault Refusal :=
  .next (initCommand Config.build (modeBits .perceptron) g l p s)

/-- INIT with an unknown MODE, 4..7: CFG_ERR (R122 (a)). -/
def execInitUnknownMode (mode : BitVec 3) (g l p : Width) (s : State) : Host.Outcome State Fault Refusal :=
  .next (initCommand Config.build mode g l p s)

end Sys2Proof.Machine
end

