-- ==== Sys2Proof/Machine/Builds.lean ====
section
/-! DEFINITION. The machine of any build (00_scope.md R7, R8: the parameters are arguments of the machine), and the one
form of a step, which this hardware's step has too: the next thing the host does at the block's inputs, performed whole. A
command is accepted, decoded, performed and answered in one step, atomically and in order (20_memory.md R65, R67). -/

namespace Sys2Proof.Machine

/-- An accepted word: the decoded command, or ILLEGAL where the decoder rejects the word, a check that comes before
every other (R90, R233, R235). -/
def runWord (run : Instr → State → Host.Outcome State Fault Refusal) (w : CmdWord) (s : State) :
    Host.Outcome State Fault Refusal :=
  match decode w with
  | .instr i => run i s
  | .illegal _ => .next (illegalCommand s)

/-- One step of a machine that performs its commands by `run` (R5, R67, R243, R260). -/
def stepWith (bd : Build) (run : Instr → State → Host.Outcome State Fault Refusal) (s : State) :
    Host.Outcome State Fault Refusal :=
  match s.host with
  | [] => .next (idle s)
  | .rst :: rest => .next (hardwareReset rest s)
  | .commandThenRst _ :: rest => .next (abandonCommand bd rest s)
  | .command w :: rest => runWord run w (acceptCommand rest s)

/-- A command performed by a block of the given build. -/
def perform (bd : Build) (i : Instr) (s : State) : State :=
  match i with
  | .initStatic g l p => initCommand bd (modeBits .static) g l p s
  | .initGshare g l p => initCommand bd (modeBits .gshare) g l p s
  | .initTournament g l p => initCommand bd (modeBits .tournament) g l p s
  | .initPerceptron g l p => initCommand bd (modeBits .perceptron) g l p s
  | .initUnknownMode mode g l p => initCommand bd mode g l p s
  | .predict pc => predictCommand pc s
  | .train pc out => trainCommand bd pc out s
  | .reservedOp _ => illegalCommand s

/-- One step of a block of the given build. -/
def stepOn (bd : Build) (s : State) : Host.Outcome State Fault Refusal :=
  stepWith bd (fun i t => .next (perform bd i t)) s

/-- The machine of the given build. -/
def coreOn (bd : Build) : Host.Core where
  State := State
  Fault := Fault
  Refusal := Refusal
  step := stepOn bd
  reset := State.reset

end Sys2Proof.Machine
end

