-- ==== Sys2Proof/Machine/Dispatch.lean ====
section
/-! DEFINITION. One arm per command, each one call of its meaning. -/

namespace Sys2Proof.Machine

def exec (i : Instr) (s : State) : Host.Outcome State Fault Refusal :=
  match i with
  | .initStatic g l p => Sys2Proof.Machine.execInitStatic g l p s
  | .initGshare g l p => Sys2Proof.Machine.execInitGshare g l p s
  | .initTournament g l p => Sys2Proof.Machine.execInitTournament g l p s
  | .initPerceptron g l p => Sys2Proof.Machine.execInitPerceptron g l p s
  | .initUnknownMode mode g l p => Sys2Proof.Machine.execInitUnknownMode mode g l p s
  | .predict pc => Sys2Proof.Machine.execPredict pc s
  | .train pc out => Sys2Proof.Machine.execTrain pc out s
  | .reservedOp rest => Sys2Proof.Machine.execReservedOp rest s

end Sys2Proof.Machine
end

