-- ==== Sys2Proof/Machine/Step.lean ====
section
/-! DEFINITION. One step of this hardware, and the state in which the host presents a given word next. -/

namespace Sys2Proof.Machine

/-- One step: this hardware's build, with `exec` for its commands (R5, R7, R67). -/
def step (s : State) : Host.Outcome State Fault Refusal := stepWith Config.build exec s

/-- The state in which the host presents the given word next. A program is a stream of command words that the host
presents; there is no fetch and no program counter (R21, R69). Log 2. -/
def State.withFetchWord (s : State) (nbits w : Nat) : State :=
  { s with host := .command (tableWord nbits w) :: s.host }

end Sys2Proof.Machine
end

