-- ==== Sys2Proof/Machine/Assembler.lean ====
section
/-! DEFINITION. The textual form of commands and the pseudo-instruction `branch` (30_encoding.md R91, R92). The block
itself never sees text. How blanks may stand between the parts of a line, and which values `.word64` takes and how they are
written, are the model's choice (log 12). -/

namespace Sys2Proof.Machine

/-- One line of text, its numbers not yet checked against their fields; an omitted width is none (R91, R92). -/
inductive AsmLine
  | init (mode : Mode) (g l p : Option Nat)
  | predict (pc : Nat)
  | train (pc : Nat) (out : Outcome)
  | word64 (value : Nat)
  | branch (pc : Nat) (out : Outcome)
deriving DecidableEq, Repr

/-- A number n as a field of w bits; refused where it does not fit (R91). For the value of `.word64` the refusal is DESIGN
CHOICE: R91 states it of a pc and of a width (log 12). -/
def asmField (w n : Nat) : Option (BitVec w) := if n < 2 ^ w then some (BitVec.ofNat w n) else none

/-- The words a line assembles to, none where the assembler refuses it (R91, R92). -/
def assemble : AsmLine → Option (List CmdWord)
  | .init mode g l p => do
    let g ← asmField 6 (g.getD 0)
    let l ← asmField 6 (l.getD 0)
    let p ← asmField 6 (p.getD 0)
    some [encodeInit (modeBits mode) g l p]
  | .predict pc => do
    let pc ← asmField 32 pc
    some [encode (.predict pc)]
  | .train pc out => do
    let pc ← asmField 32 pc
    some [encode (.train pc out)]
  | .word64 value => do
    let w ← asmField 64 value
    some [w]
  | .branch pc out => do
    let pc ← asmField 32 pc
    some [encode (.predict pc), encode (.train pc out)]

/-- The parts of a line. -/
inductive AsmToken
  | word (cs : List Char)
  | comma
  | equals
deriving DecidableEq, Repr

/-- The word read so far (its characters in reverse) as a token, if it has any character. -/
def asmFlush (acc : List Char) : List AsmToken := if acc = [] then [] else [.word acc.reverse]

/-- The parts of a line; `;` starts a comment (R91). -/
def asmTokens (acc : List Char) : List Char → List AsmToken
  | [] => asmFlush acc
  | c :: cs =>
    if c = ';' then asmFlush acc
    else if c = ',' then asmFlush acc ++ .comma :: asmTokens [] cs
    else if c = '=' then asmFlush acc ++ .equals :: asmTokens [] cs
    else if c.isWhitespace then asmFlush acc ++ asmTokens [] cs
    else asmTokens (c :: acc) cs

/-- The value of a digit below the base. -/
def asmDigit (base : Nat) (c : Char) : Option Nat :=
  let n := c.toNat
  let v := if 48 ≤ n ∧ n ≤ 57 then n - 48 else if 97 ≤ n ∧ n ≤ 102 then n - 87 else if 65 ≤ n ∧ n ≤ 70 then n - 55 else 16
  if v < base then some v else none

/-- The value of a run of digits after the value read so far. -/
def asmDigits (base : Nat) (acc : Nat) : List Char → Option Nat
  | [] => some acc
  | c :: cs => do
    let d ← asmDigit base c
    asmDigits base (base * acc + d) cs

/-- A decimal or `0x` hexadecimal unsigned number (R91). -/
def asmNumber : List Char → Option Nat
  | [] => none
  | ['0', 'x'] => none
  | '0' :: 'x' :: cs => asmDigits 16 0 cs
  | cs => asmDigits 10 0 cs

/-- A mode name, in lower case (R91). -/
def asmMode (cs : List Char) : Option Mode :=
  if cs = "static".toList then some .static
  else if cs = "gshare".toList then some .gshare
  else if cs = "tournament".toList then some .tournament
  else if cs = "perceptron".toList then some .perceptron
  else none

/-- `t` is Taken and `n` is NotTaken (R91). -/
def asmOutcome (cs : List Char) : Option Outcome :=
  if cs = ['t'] then some .taken else if cs = ['n'] then some .notTaken else none

/-- The optional part `, <name>=<n>` at the front of a line's parts, and the parts after it (R91). -/
def asmWidth (name : Char) : List AsmToken → Option (Option Nat × List AsmToken)
  | .comma :: .word c :: .equals :: .word n :: rest =>
    if c = [name] then (asmNumber n).map fun v => (some v, rest)
    else some (none, .comma :: .word c :: .equals :: .word n :: rest)
  | ts => some (none, ts)

/-- The operands `<pc>, <t|n>` of `train` and `branch` (R91, R92). -/
def asmPcOutcome (build : Nat → Outcome → AsmLine) : List AsmToken → Option AsmLine
  | [.word pc, .comma, .word o] => do
    let pc ← asmNumber pc
    let o ← asmOutcome o
    some (build pc o)
  | _ => none

/-- The single operand of `predict` and `.word64` (R91). That the value of `.word64` has the number form R91 gives a pc is
DESIGN CHOICE: R91 does not say how it is written (log 12). -/
def asmOne (build : Nat → AsmLine) : List AsmToken → Option AsmLine
  | [.word n] => (asmNumber n).map build
  | _ => none

/-- The operands of `init` (R91). -/
def asmInit : List AsmToken → Option AsmLine
  | .word m :: rest => do
    let mode ← asmMode m
    let (g, rest) ← asmWidth 'g' rest
    let (l, rest) ← asmWidth 'l' rest
    let (p, rest) ← asmWidth 'p' rest
    if rest = [] then some (.init mode g l p) else none
  | _ => none

/-- The line a list of parts stands for, none where a mnemonic, a mode name or a form is unknown (R91). -/
def asmParse : List AsmToken → Option AsmLine
  | .word m :: rest =>
    if m = "init".toList then asmInit rest
    else if m = "predict".toList then asmOne .predict rest
    else if m = "train".toList then asmPcOutcome .train rest
    else if m = ".word64".toList then asmOne .word64 rest
    else if m = "branch".toList then asmPcOutcome .branch rest
    else none
  | _ => none

/-- The words one line of text assembles to: none of them for a blank or comment line, and none where the assembler
refuses the line (R91). -/
def assembleText (line : String) : Option (List CmdWord) :=
  match asmTokens [] line.toList with
  | [] => some []
  | ts => (asmParse ts).bind assemble

end Sys2Proof.Machine
end

