-- ==== Sys2Proof/Safety.lean ====
section
/-! DEFINITION. What claims about the block are stated with: the invariant of its state, the answer of a command,
and a run without errors. -/

namespace Sys2Proof.Machine

/-- The width of the part of a table whose entries may differ from their INIT value: the active part while the block is
configured, and before that all the build has (R27 to R32, R36). -/
def liveWidth (b : Block) (cfg : Width) (built : Nat) : Nat := if b.cfgValid then cfg.toNat else built

/-- The state invariant of 10_state.md for a build: legal widths (R24), GHR within CFG_G bits (R26), the tables in
canonical form, every local history within its width (R28), every weight within WBITS bits (R32), and every index of a
table that differs from its INIT value within the live part of the table (R27 to R32, R36). -/
structure Inv (bd : Build) (b : Block) : Prop where
  gLegal : b.cfgG.toNat ≤ bd.gMax
  lLegal : b.cfgL.toNat ≤ bd.lMax
  pLegal : b.cfgP.toNat ≤ bd.pMax
  ghrMasked : b.ghr &&& ~~~ mask b.cfgG = 0#32
  memory : Memory.wf b = true
  lhtMasked : ∀ i, (readLht b i).toNat < 2 ^ liveWidth b b.cfgL bd.lMax
  weightRange : ∀ (i : Word) (j : Fin 32), wMin bd.wbits ≤ (readPwt b i)[j] ∧ (readPwt b i)[j] ≤ wMax bd.wbits
  weightLive : ∀ (i : Word) (j : Fin 32), liveWidth b b.cfgG bd.gMax ≤ j.val → (readPwt b i)[j] = 0
  phtLive : ∀ i : Word, 2 ^ liveWidth b b.cfgG bd.gMax ≤ i.toNat → readPht b i = .WN
  lhtLive : ∀ i : Word, 2 ^ liveWidth b b.cfgP bd.pMax ≤ i.toNat → readLht b i = 0#32
  lptLive : ∀ i : Word, 2 ^ liveWidth b b.cfgL bd.lMax ≤ i.toNat → readLpt b i = .WN
  gptLive : ∀ i : Word, 2 ^ liveWidth b b.cfgG bd.gMax ≤ i.toNat → readGpt b i = .WN
  chtLive : ∀ i : Word, 2 ^ liveWidth b b.cfgG bd.gMax ≤ i.toNat → readCht b i = .WG
  pwtLive : ∀ i : Word, 2 ^ liveWidth b b.cfgP bd.pMax ≤ i.toNat → readPwt b i = zeroWeights

/-- The INIT command of a known variant (R86). Claims about all four INIT rows are stated with it. -/
def initOf : Mode → Width → Width → Width → Instr
  | .static, g, l, p => .initStatic g l p
  | .gshare, g, l, p => .initGshare g l p
  | .tournament, g, l, p => .initTournament g l p
  | .perceptron, g, l, p => .initPerceptron g l p

/-- t is s after one response r of a command that needs no host input of its own: r is on the response port and at
the end of the observation, and the sticky error record took r's STATUS in (R37, R80, R88, R236). What the command
did to the block is stated apart. -/
structure Answers (s t : State) (st : Status) (pred : Outcome) : Prop where
  rsp : t.rsp = some (rspWord st pred)
  trace : t.trace = s.trace ++ [rspWord st pred]
  firstError : t.firstError = recordError s.firstError s.accepted st
  accepted : t.accepted = s.accepted
  host : t.host = s.host
  freeCount : t.freeCount = s.freeCount

/-- The block is configured, in mode m (R22, R23). -/
def Active (s : State) (m : Mode) : Prop := s.block.cfgValid = true ∧ s.block.cfgMode = m

/-- A count that stops at 3 going up and at 0 going down, as claims about the 2-bit state machines say it (R101, R103). -/
def saturate (n : Nat) (up : Bool) : Nat := if up then min (n + 1) 3 else n - 1

/-- A run without errors: no command of it has answered anything but OK (R236). -/
def Safe (s : State) : Prop := s.firstError = none

end Sys2Proof.Machine
end

