-- ==== Sys2Proof/Certificates/Slice0/Obligations.lean ====
section
/-! DEFINITION. The statements for the provers, from the numbered rules of spec/. -/

open Sys2Proof Sys2Proof.Machine

/-! ### Encoding -/

/-- Decoding an encoded well-formed command gives it back, with every operand at every value (R82, R83, R90). -/
def Obligations.DecodeOfEncode : Prop :=
  ∀ i : Instr, i.wellFormed = true → decode (encode i) = .instr i

/-- A word that decodes to a command is that command's only word, and the command is well formed (R90). -/
def Obligations.EncodeOfDecode : Prop :=
  ∀ (w : CmdWord) (i : Instr), decode w = .instr i → i.wellFormed = true ∧ encode i = w

/-- The opcode map of R90, in numbers: each case of the total decoder, and the same map as match and mask pairs,
where a word that matches no row is ILLEGAL and no word matches two rows. -/
def Obligations.DecoderIsTheOpcodeMap : Prop :=
  ∀ w : CmdWord,
    let n := w.toNat
    let g := BitVec.ofNat 6 (n / 2 ^ 5)
    let l := BitVec.ofNat 6 (n / 2 ^ 11)
    let p := BitVec.ofNat 6 (n / 2 ^ 17)
    let pc := BitVec.ofNat 32 (n / 2 ^ 32)
    (n % 4 = 0 → n / 2 ^ 23 ≠ 0 → ∃ r, decode w = .illegal r) ∧
    (n % 4 = 0 → n / 2 ^ 23 = 0 → n / 4 % 8 = 0 → decode w = .instr (.initStatic g l p)) ∧
    (n % 4 = 0 → n / 2 ^ 23 = 0 → n / 4 % 8 = 1 → decode w = .instr (.initGshare g l p)) ∧
    (n % 4 = 0 → n / 2 ^ 23 = 0 → n / 4 % 8 = 2 → decode w = .instr (.initTournament g l p)) ∧
    (n % 4 = 0 → n / 2 ^ 23 = 0 → n / 4 % 8 = 3 → decode w = .instr (.initPerceptron g l p)) ∧
    (n % 4 = 0 → n / 2 ^ 23 = 0 → 4 ≤ n / 4 % 8 →
      decode w = .instr (.initUnknownMode (BitVec.ofNat 3 (n / 4)) g l p)) ∧
    (n % 4 = 1 → n / 4 % 2 ^ 30 ≠ 0 → ∃ r, decode w = .illegal r) ∧
    (n % 4 = 1 → n / 4 % 2 ^ 30 = 0 → decode w = .instr (.predict pc)) ∧
    (n % 4 = 2 → n / 8 % 2 ^ 29 ≠ 0 → ∃ r, decode w = .illegal r) ∧
    (n % 4 = 2 → n / 8 % 2 ^ 29 = 0 → n / 4 % 2 = 0 → decode w = .instr (.train pc .notTaken)) ∧
    (n % 4 = 2 → n / 8 % 2 ^ 29 = 0 → n / 4 % 2 = 1 → decode w = .instr (.train pc .taken)) ∧
    (n % 4 = 3 → decode w = .instr (.reservedOp (BitVec.ofNat 62 (n / 4)))) ∧
    (∀ i, decode w = .instr i → ∀ k r, opcodeRows[k]? = some r → (r.contains w = true ↔ k = rowIndex i)) ∧
    (∀ x, decode w = .illegal x → ∀ r ∈ opcodeRows, r.contains w = false)

/-- Words of every family written out from R82 and R83 decode to the commands they stand for (R93). -/
def Obligations.EncodingExamples : Prop :=
  decode 0x0000000000000000#64 = .instr (.initStatic 0#6 0#6 0#6) ∧
  decode 0x0000000000000044#64 = .instr (.initGshare 2#6 0#6 0#6) ∧
  decode 0x0000000000020828#64 = .instr (.initTournament 1#6 1#6 1#6) ∧
  decode 0x0000000000041048#64 = .instr (.initTournament 2#6 2#6 2#6) ∧
  decode 0x000000000002006C#64 = .instr (.initPerceptron 3#6 0#6 1#6) ∧
  decode 0x0000000000410404#64 = .instr (.initGshare 32#6 32#6 32#6) ∧
  decode 0x0000000500000001#64 = .instr (.predict 5#32) ∧
  decode 0x0000000500000006#64 = .instr (.train 5#32 .taken) ∧
  decode 0x0000000500000002#64 = .instr (.train 5#32 .notTaken) ∧
  decode 0xFFFFFFFF00000001#64 = .instr (.predict 0xFFFFFFFF#32)

/-! ### The step -/

/-- When the word the host presents next decodes to a command, the step is that command performed at the state in
which the word has been accepted: it has left the host's list and is counted. The second clause says the same of a
word placed by withFetchWord. How the host's words reach the block is the model's choice (log 2). -/
def Obligations.StepRunsTheDecodedCommand : Prop :=
  (∀ (s : State) (w : CmdWord) (rest : List HostInput) (i : Instr), s.host = .command w :: rest →
    decode w = .instr i → step s = exec i { s with host := rest, accepted := s.accepted + 1 }) ∧
  (∀ (s : State) (i : Instr), i.wellFormed = true →
    step (s.withFetchWord 64 (encode i).toNat) = exec i { s with accepted := s.accepted + 1 })

/-- A reserved encoding (OP = 0b11, or a 1 in an RSVD field) answers ILLEGAL and writes no state of the block,
whatever else is wrong with the word (R89, R233, R235). -/
def Obligations.ReservedEncodingAnswersIllegal : Prop :=
  ∀ (s : State) (w : CmdWord) (rest : List HostInput), s.host = .command w :: rest →
    let n := w.toNat
    (n % 4 = 3 ∨ (n % 4 = 0 ∧ n / 2 ^ 23 ≠ 0) ∨ (n % 4 = 1 ∧ n / 4 % 2 ^ 30 ≠ 0) ∨
      (n % 4 = 2 ∧ n / 8 % 2 ^ 29 ≠ 0)) →
    ∃ t, step s = .next t ∧ t.block = s.block ∧ t.rsp = some 0b110#3 ∧
      Answers { s with host := rest, accepted := s.accepted + 1 } t .illegal .notTaken

/-- The STATUS of every command, decided in the order of R235: ILLEGAL for a reserved encoding, whatever else is wrong;
then, for INIT, CFG_ERR for an unknown mode or a width above 32; then, for PREDICT and TRAIN, NOT_INIT while CFG_VALID
is 0; otherwise OK. -/
def Obligations.StatusIsDecidedInOrder : Prop :=
  ∀ (s : State) (w : CmdWord) (rest : List HostInput), s.host = .command w :: rest →
    let n := w.toNat
    let reserved : Prop := n % 4 = 3 ∨ (n % 4 = 0 ∧ n / 2 ^ 23 ≠ 0) ∨ (n % 4 = 1 ∧ n / 4 % 2 ^ 30 ≠ 0) ∨
      (n % 4 = 2 ∧ n / 8 % 2 ^ 29 ≠ 0)
    let badInit : Prop := 4 ≤ n / 4 % 8 ∨ 32 < n / 2 ^ 5 % 64 ∨ 32 < n / 2 ^ 11 % 64 ∨ 32 < n / 2 ^ 17 % 64
    ∃ t r, step s = .next t ∧ t.rsp = some r ∧
      (reserved → r.toNat / 2 = 3) ∧
      (¬ reserved → n % 4 = 0 → badInit → r.toNat / 2 = 1) ∧
      (¬ reserved → n % 4 = 0 → ¬ badInit → r.toNat / 2 = 0) ∧
      (¬ reserved → n % 4 ≠ 0 → s.block.cfgValid = false → r.toNat / 2 = 2) ∧
      (¬ reserved → n % 4 ≠ 0 → s.block.cfgValid = true → r.toNat / 2 = 0)

/-- The reserved command completes with ILLEGAL in every state, with no state of the block written (R233). -/
def Obligations.ReservedCommandWritesNothing : Prop :=
  ∀ (s : State) (rest : BitVec 62),
    ∃ t, exec (.reservedOp rest) s = .next t ∧ t.block = s.block ∧ Answers s t .illegal .notTaken

/-- A command the host presents gets exactly one response, in order, and is consumed; PRED is 1 only in the OK
response of a PREDICT (R80, R88). -/
def Obligations.OneResponsePerCommand : Prop :=
  ∀ (s : State) (w : CmdWord) (rest : List HostInput), s.host = .command w :: rest →
    ∃ t r, step s = .next t ∧ t.rsp = some r ∧ t.trace = s.trace ++ [r] ∧ t.host = rest ∧
      t.accepted = s.accepted + 1 ∧
      (r.getLsbD 0 = true → r.toNat / 2 = 0 ∧ ∃ pc, decode w = .instr (.predict pc))

/-- No run stops: from every state, every number of steps gives a next state, since no error is anything but an
in-band response (R234, R238). -/
def Obligations.NoRunEverStops : Prop :=
  ∀ (n : Nat) (s : State), ∃ t, Sys2Proof.core.run n s = .next t

/-- With nothing presented the block is idle and holds its state (R243). That the response port is then empty is
the model's choice (log 1). -/
def Obligations.IdleBlockHoldsItsState : Prop :=
  ∀ s : State, s.host = [] →
    ∃ t, step s = .next t ∧ t = { s with rsp := none }

/-! ### Reset -/

/-- rst clears CFG_VALID, CFG_MODE, CFG_G, CFG_L, CFG_P and GHR, leaves the tables, and gives no response; a command
in flight is abandoned, without a response, and leaves the same registers and canonical tables (R260). That a rst
with no command in flight leaves the tables as they were is R260's "not changed by the reset" (log 5); the tables after
an abandoned command are free (log 6). -/
def Obligations.HardwareResetClearsTheRegisters : Prop :=
  (∀ (s : State) (rest : List HostInput), s.host = .rst :: rest →
    ∃ t, step s = .next t ∧
      t.block = { s.block with cfgValid := false, cfgMode := .static, cfgG := 0#6, cfgL := 0#6, cfgP := 0#6, ghr := 0#32 } ∧
      t.rsp = none ∧ t.trace = s.trace ∧ t.host = rest ∧ t.accepted = s.accepted ∧ t.firstError = s.firstError) ∧
  (∀ (s : State) (w : CmdWord) (rest : List HostInput), s.host = .commandThenRst w :: rest →
    ∃ t, step s = .next t ∧ t.block.cfgValid = false ∧ t.block.cfgMode = .static ∧ t.block.cfgG = 0#6 ∧
      t.block.cfgL = 0#6 ∧ t.block.cfgP = 0#6 ∧ t.block.ghr = 0#32 ∧ Memory.wf t.block = true ∧
      t.rsp = none ∧ t.trace = s.trace ∧ t.host = rest ∧ t.firstError = s.firstError)

/-! ### The build -/

/-- The machine with the parameters as an argument, at this hardware's values, is this hardware: every run of the two is
the same. The values are those of R7's table, THETA the free value (log 7), and every build meets R7's constraints. -/
def Obligations.TheHardwareIsItsBuild : Prop :=
  (∀ (n : Nat) (s : State), Sys2Proof.core.run n s = (coreOn Config.build).run n s) ∧
  (Config.build.gMax = 32 ∧ Config.build.lMax = 32 ∧ Config.build.pMax = 32 ∧ Config.build.theta = Config.THETA ∧
    Config.build.wbits = 8 ∧ Config.build.percHseed = 0#32 ∧ Config.build.accBits = 13) ∧
  (∀ bd : Build, bd.gMax ≤ 32 ∧ bd.lMax ≤ 32 ∧ bd.pMax ≤ 32 ∧ 2 ≤ bd.wbits ∧ bd.wbits + 5 ≤ bd.accBits ∧
    bd.percHseed.toNat < 2 ^ bd.gMax)

/-! ### INIT -/

/-- A successful INIT sets CFG_MODE, CFG_G, CFG_L and CFG_P to the command's, CFG_VALID to 1, GHR to 0 (in PERCEPTRON
mode to PERC_HSEED masked to g bits) and every entry of every table to its INIT value, and answers OK (R121). -/
def Obligations.SuccessfulInitSetsEverything : Prop :=
  ∀ (s : State) (m : Mode) (g l p : Width), g.toNat ≤ 32 → l.toNat ≤ 32 → p.toNat ≤ 32 →
    ∃ t, exec (initOf m g l p) s = .next t ∧ Answers s t .ok .notTaken ∧
      t.block.cfgValid = true ∧ t.block.cfgMode = m ∧ t.block.cfgG = g ∧ t.block.cfgL = l ∧ t.block.cfgP = p ∧
      (m ≠ .perceptron → t.block.ghr = 0#32) ∧
      (m = .perceptron → t.block.ghr.toNat = Config.build.percHseed.toNat % 2 ^ g.toNat) ∧
      ∀ i : Word, readPht t.block i = .WN ∧ readLpt t.block i = .WN ∧ readGpt t.block i = .WN ∧
        readCht t.block i = .WG ∧ readLht t.block i = 0#32 ∧ ∀ j : Fin 32, (readPwt t.block i)[j] = 0

/-- INIT with an unknown mode, or with any width in 33..63 whatever the mode, answers CFG_ERR, writes CFG_VALID <- 0
and nothing else of the block (R122, R231). -/
def Obligations.FailedInitOnlyUnconfigures : Prop :=
  (∀ (s : State) (m : Mode) (g l p : Width), 32 < g.toNat ∨ 32 < l.toNat ∨ 32 < p.toNat →
    ∃ t, exec (initOf m g l p) s = .next t ∧ t.block = { s.block with cfgValid := false } ∧
      Answers s t .cfgErr .notTaken) ∧
  (∀ (s : State) (mode : BitVec 3) (g l p : Width), 4 ≤ mode.toNat →
    ∃ t, exec (.initUnknownMode mode g l p) s = .next t ∧ t.block = { s.block with cfgValid := false } ∧
      Answers s t .cfgErr .notTaken)

/-- For the machine of every build, INIT succeeds exactly for a known mode and widths within the build's maxima; so a build
with a maximum below 32 refuses with CFG_ERR every INIT that names a larger width, and a refused INIT changes CFG_VALID
alone (R7, R87, R122). -/
def Obligations.InitValidatesAgainstTheBuild : Prop :=
  ∀ (bd : Build) (mode : BitVec 3) (g l p : Width) (s : State) (rest : List HostInput),
    s.host = .command (encodeInit mode g l p) :: rest →
    ∃ t, stepOn bd s = .next t ∧
      (t.block.cfgValid = true ↔ mode.toNat ≤ 3 ∧ g.toNat ≤ bd.gMax ∧ l.toNat ≤ bd.lMax ∧ p.toNat ≤ bd.pMax) ∧
      (t.block.cfgValid = true → t.rsp = some 0b000#3 ∧ t.block.cfgG = g ∧ t.block.cfgL = l ∧ t.block.cfgP = p ∧
        t.block.ghr.toNat = if mode.toNat = 3 then bd.percHseed.toNat % 2 ^ g.toNat else 0) ∧
      (t.block.cfgValid = false → t.block = { s.block with cfgValid := false } ∧ t.rsp = some 0b010#3)

/-- Each successful INIT discards all predictor state: the block it leaves does not depend on the block it found (R123). -/
def Obligations.InitForgetsTheEarlierBlock : Prop :=
  ∀ (s u : State) (m : Mode) (g l p : Width), g.toNat ≤ 32 → l.toNat ≤ 32 → p.toNat ≤ 32 →
    ∃ t v, exec (initOf m g l p) s = .next t ∧ exec (initOf m g l p) u = .next v ∧ t.block = v.block ∧ t.rsp = v.rsp

/-- CFG_VALID: 0 after the hardware reset, 1 after a successful INIT, 0 after a failed one, written by no other
command, and PREDICT and TRAIN answer NOT_INIT while it is 0 (R22). -/
def Obligations.CfgValidFollowsTheLastInit : Prop :=
  State.reset.block.cfgValid = false ∧
  (∀ (s t : State) (w : CmdWord) (rest : List HostInput), s.host = .rst :: rest ∨ s.host = .commandThenRst w :: rest →
    step s = .next t → t.block.cfgValid = false) ∧
  ∀ (s t : State) (w : CmdWord) (rest : List HostInput), s.host = .command w :: rest → step s = .next t →
    (∀ m g l p, decode w = .instr (initOf m g l p) →
      (t.block.cfgValid = true ↔ g.toNat ≤ 32 ∧ l.toNat ≤ 32 ∧ p.toNat ≤ 32)) ∧
    (∀ mode g l p, decode w = .instr (.initUnknownMode mode g l p) → t.block.cfgValid = false) ∧
    ((∀ m g l p, decode w ≠ .instr (initOf m g l p)) → (∀ mode g l p, decode w ≠ .instr (.initUnknownMode mode g l p)) →
      t.block.cfgValid = s.block.cfgValid) ∧
    (∀ pc, decode w = .instr (.predict pc) → s.block.cfgValid = false → t.rsp = some 0b100#3) ∧
    (∀ pc o, decode w = .instr (.train pc o) → s.block.cfgValid = false → t.rsp = some 0b100#3)

/-- Only INIT and TRAIN change the block: a command word that is neither leaves all of it, and a TRAIN leaves the
configuration registers (R22 to R24, R36, R127). -/
def Obligations.OnlyInitAndTrainWriteTheBlock : Prop :=
  ∀ (s t : State) (w : CmdWord) (rest : List HostInput), s.host = .command w :: rest → step s = .next t →
    (∀ m g l p, decode w ≠ .instr (initOf m g l p)) → (∀ mode g l p, decode w ≠ .instr (.initUnknownMode mode g l p)) →
    ((∀ pc o, decode w ≠ .instr (.train pc o)) → t.block = s.block) ∧
    t.block.cfgValid = s.block.cfgValid ∧ t.block.cfgMode = s.block.cfgMode ∧ t.block.cfgG = s.block.cfgG ∧
    t.block.cfgL = s.block.cfgL ∧ t.block.cfgP = s.block.cfgP

/-! ### PREDICT and TRAIN, in every mode -/

/-- PREDICT completes in every state and writes no state of the block, in any mode; its response depends only on the
block and pc; and any number of PREDICT commands in a row leave the same block (R127). -/
def Obligations.PredictWritesNoState : Prop :=
  (∀ (s u : State) (pc : Word), s.block = u.block →
    ∃ t v, exec (.predict pc) s = .next t ∧ exec (.predict pc) u = .next v ∧ t.block = s.block ∧ t.rsp = v.rsp) ∧
  (∀ (s : State) (pcs : List Word) (rest : List HostInput),
    s.host = pcs.map (fun q => .command (encode (.predict q))) ++ rest →
    ∃ t, Sys2Proof.core.run pcs.length s = .next t ∧ t.block = s.block ∧ t.host = rest)

/-- While CFG_VALID = 0, PREDICT and TRAIN change no state and answer NOT_INIT with PRED = 0 (R126, R232). -/
def Obligations.UnconfiguredCommandsAnswerNotInit : Prop :=
  ∀ (s : State) (pc : Word) (out : Outcome), s.block.cfgValid = false →
    (∃ t, exec (.predict pc) s = .next t ∧ t.block = s.block ∧ Answers s t .notInit .notTaken) ∧
    (∃ t, exec (.train pc out) s = .next t ∧ t.block = s.block ∧ Answers s t .notInit .notTaken)

/-- A configured PREDICT or TRAIN always answers OK, and TRAIN's PRED is 0 (R125, R234). -/
def Obligations.ConfiguredCommandsAnswerOk : Prop :=
  ∀ (s : State) (pc : Word) (out : Outcome), s.block.cfgValid = true →
    (∃ t pred, exec (.predict pc) s = .next t ∧ Answers s t .ok pred) ∧
    (∃ t, exec (.train pc out) s = .next t ∧ Answers s t .ok .notTaken)

/-- TRAIN is self-contained: after any number of PREDICT commands, naming any pcs, it leaves the block and answers
the response that it would have without them (R127, R128). -/
def Obligations.TrainIgnoresEarlierPredicts : Prop :=
  ∀ (s : State) (pcs : List Word) (pc : Word) (out : Outcome) (rest : List HostInput),
    s.host = pcs.map (fun q => .command (encode (.predict q))) ++ .command (encode (.train pc out)) :: rest →
    ∃ t u, Sys2Proof.core.run (pcs.length + 1) s = .next t ∧ exec (.train pc out) s = .next u ∧
      t.block = u.block ∧ t.rsp = u.rsp ∧ t.host = rest

/-! ### STATIC -/

/-- STATIC PREDICT answers Taken for every pc and writes nothing (R140). -/
def Obligations.StaticPredictAnswersTaken : Prop :=
  ∀ (s : State) (pc : Word), Active s .static →
    ∃ t, exec (.predict pc) s = .next t ∧ t.block = s.block ∧ Answers s t .ok .taken

/-- STATIC TRAIN is no operation: no state of the block is written, GHR included (R141). -/
def Obligations.StaticTrainWritesNothing : Prop :=
  ∀ (s : State) (pc : Word) (out : Outcome), Active s .static →
    ∃ t, exec (.train pc out) s = .next t ∧ t.block = s.block ∧ Answers s t .ok .notTaken

/-! ### GSHARE -/

/-- GSHARE PREDICT answers Taken iff PHT[GHR XOR (pc masked to G bits)] is WeaklyTaken or StronglyTaken, and writes
nothing (R150, R152). -/
def Obligations.GsharePredictReadsTheIndexedCounter : Prop :=
  ∀ (s : State) (pc : Word), Active s .gshare → s.block.cfgG.toNat ≤ 32 →
    let c := readPht s.block (BitVec.ofNat 32 (s.block.ghr.toNat ^^^ (pc.toNat % 2 ^ s.block.cfgG.toNat)))
    ∃ t, exec (.predict pc) s = .next t ∧ t.block = s.block ∧
      Answers s t .ok (if c = .WT ∨ c = .ST then .taken else .notTaken)

/-- GSHARE TRAIN moves PHT at the index formed from GHR before the shift, by the saturating counter, shifts the
outcome into GHR, and writes nothing else (R151, R263). -/
def Obligations.GshareTrainMovesOneCounterAndShifts : Prop :=
  ∀ (s : State) (pc : Word) (out : Outcome), Active s .gshare → s.block.cfgG.toNat ≤ 32 →
    Memory.wf s.block = true →
    let i := BitVec.ofNat 32 (s.block.ghr.toNat ^^^ (pc.toNat % 2 ^ s.block.cfgG.toNat))
    ∃ t, exec (.train pc out) s = .next t ∧ Answers s t .ok .notTaken ∧
      (∀ j, (counterBits (readPht t.block j)).toNat =
        if j = i then saturate (counterBits (readPht s.block i)).toNat (decide (out = .taken))
        else (counterBits (readPht s.block j)).toNat) ∧
      t.block.ghr.toNat = (2 * s.block.ghr.toNat + (if out = .taken then 1 else 0)) % 2 ^ s.block.cfgG.toNat ∧
      t.block = { s.block with pht := t.block.pht, ghr := t.block.ghr }

/-- Right after a Gshare INIT every PREDICT answers NotTaken; with G = 0, one TRAIN with Taken makes the next PREDICT,
of any pc, answer Taken (R153 (a) and (b)). -/
def Obligations.GshareAfterInit : Prop :=
  ∀ (s t : State) (g l p : Width), g.toNat ≤ 32 → l.toNat ≤ 32 → p.toNat ≤ 32 →
    exec (.initGshare g l p) s = .next t →
    (∀ pc, ∃ u, exec (.predict pc) t = .next u ∧ u.rsp = some 0b000#3) ∧
    (g = 0#6 → ∀ pc pc', ∃ u v, exec (.train pc .taken) t = .next u ∧ exec (.predict pc') u = .next v ∧
      v.rsp = some 0b001#3)

/-! ### TOURNAMENT -/

/-- TOURNAMENT PREDICT answers the local vote when the choice at GHR favors local, else the global vote, and writes
nothing (R170, R176). -/
def Obligations.TournamentPredictFollowsTheChoice : Prop :=
  ∀ (s : State) (pc : Word), Active s .tournament → s.block.cfgP.toNat ≤ 32 →
    let b := s.block
    let lv := readLpt b (readLht b (BitVec.ofNat 32 (pc.toNat % 2 ^ b.cfgP.toNat)))
    let gv := readGpt b b.ghr
    let ch := readCht b b.ghr
    ∃ t, exec (.predict pc) s = .next t ∧ t.block = s.block ∧
      (ch = .SL ∨ ch = .WL → Answers s t .ok (if lv = .WT ∨ lv = .ST then .taken else .notTaken)) ∧
      (ch = .WG ∨ ch = .SG → Answers s t .ok (if gv = .WT ∨ gv = .ST then .taken else .notTaken))

/-- TOURNAMENT TRAIN: the local counter at the old local history, the local history, the global counter and (when the
pre-update votes disagree) the choice at the pre-shift GHR, and GHR, each moved by its rule from the values before the
command; nothing else is written (R171 to R175, R177, R178). -/
def Obligations.TournamentTrainFollowsItsSteps : Prop :=
  ∀ (s : State) (pc : Word) (out : Outcome), Active s .tournament → s.block.cfgG.toNat ≤ 32 →
    s.block.cfgL.toNat ≤ 32 → s.block.cfgP.toNat ≤ 32 → Memory.wf s.block = true →
    let b := s.block
    let li := BitVec.ofNat 32 (pc.toNat % 2 ^ b.cfgP.toNat)
    let lh := readLht b li
    let lv := readLpt b lh
    let gv := readGpt b b.ghr
    let bit := if out = .taken then 1 else 0
    ∃ t, exec (.train pc out) s = .next t ∧ Answers s t .ok .notTaken ∧
      (∀ j, (counterBits (readLpt t.block j)).toNat =
        if j = lh then saturate (counterBits lv).toNat (decide (out = .taken)) else (counterBits (readLpt b j)).toNat) ∧
      (∀ j, (readLht t.block j).toNat =
        if j = li then (2 * lh.toNat + bit) % 2 ^ b.cfgL.toNat else (readLht b j).toNat) ∧
      (∀ j, (counterBits (readGpt t.block j)).toNat =
        if j = b.ghr then saturate (counterBits gv).toNat (decide (out = .taken)) else (counterBits (readGpt b j)).toNat) ∧
      (∀ j, (choiceBits (readCht t.block j)).toNat =
        if j = b.ghr ∧ ((lv = .WT ∨ lv = .ST) ↔ ¬ (gv = .WT ∨ gv = .ST))
        then saturate (choiceBits (readCht b b.ghr)).toNat (decide ((gv = .WT ∨ gv = .ST) ↔ out = .taken))
        else (choiceBits (readCht b j)).toNat) ∧
      t.block.ghr.toNat = (2 * b.ghr.toNat + bit) % 2 ^ b.cfgG.toNat ∧
      t.block = { b with lpt := t.block.lpt, lht := t.block.lht, gpt := t.block.gpt, cht := t.block.cht, ghr := t.block.ghr }

/-- A TRAIN whose local and global votes agree leaves every CHT entry unchanged, and a TRAIN writes at most the CHT
entry at the pre-shift GHR (R179 (a) and (b)). -/
def Obligations.ChoiceIsUntouchedUnderAgreement : Prop :=
  ∀ (s t : State) (pc : Word) (out : Outcome), Active s .tournament → Memory.wf s.block = true →
    exec (.train pc out) s = .next t →
    (taken (readLpt s.block (readLht s.block (pcIndex s.block pc))) = taken (readGpt s.block s.block.ghr) →
      ∀ j, readCht t.block j = readCht s.block j) ∧
    (∀ j, j ≠ s.block.ghr → readCht t.block j = readCht s.block j)

/-- While the choice favors local, a PREDICT's answer does not depend on GPT; while it favors global, it does not depend
on LHT or LPT (R179 (c)). -/
def Obligations.TheOtherPredictorIsNotRead : Prop :=
  ∀ (s : State) (pc : Word) (gpt : Table Counter) (lht : Table History) (lpt : Table Counter), Active s .tournament →
    ∃ t u v, exec (.predict pc) s = .next t ∧
      exec (.predict pc) { s with block := { s.block with gpt := gpt } } = .next u ∧
      exec (.predict pc) { s with block := { s.block with lht := lht, lpt := lpt } } = .next v ∧
      (favorsLocal (readCht s.block s.block.ghr) = true → u.rsp = t.rsp) ∧
      (favorsLocal (readCht s.block s.block.ghr) = false → v.rsp = t.rsp)

/-! ### PERCEPTRON -/

/-- PERCEPTRON PREDICT answers Taken iff the exact sum of weight times history entry over the H = G weights of the
vector at pc masked to P bits is at least 0, and writes nothing (R200, R201). -/
def Obligations.PerceptronPredictIsTheSignOfTheSum : Prop :=
  ∀ (s : State) (pc : Word), Active s .perceptron → s.block.cfgG.toNat ≤ 32 → s.block.cfgP.toNat ≤ 32 →
    let w := readPwt s.block (BitVec.ofNat 32 (pc.toNat % 2 ^ s.block.cfgP.toNat))
    let hv : Nat → Int := fun j => if j = 0 then 1 else if s.block.ghr.getLsbD (j - 1) then 1 else -1
    let y : Int := ∑ j : Fin 32, if j.val < s.block.cfgG.toNat then w[j] * hv j.val else 0
    ∃ t, exec (.predict pc) s = .next t ∧ t.block = s.block ∧
      (0 ≤ y → Answers s t .ok .taken) ∧ (y < 0 → Answers s t .ok .notTaken)

/-- PERCEPTRON TRAIN: when the prediction would have been wrong or the sum is within THETA of 0, each of the H weights
of the vector moves by the target times its pre-shift history entry, clipped to WBITS bits; otherwise no weight moves; GHR
shifts always; nothing else is written (R202, R204 to R207). exec performs it with this hardware's build, whose WBITS is 8
and whose THETA is a free value (log 7); what it does is stated for every build, and so for every THETA and WBITS. -/
def Obligations.PerceptronTrainClipsAndAlwaysShifts : Prop :=
  ∀ (s : State) (pc : Word) (out : Outcome), Active s .perceptron → s.block.cfgG.toNat ≤ 32 →
    s.block.cfgP.toNat ≤ 32 → Memory.wf s.block = true →
    exec (.train pc out) s = .next (trainCommand Config.build pc out s) ∧
    ∀ bd : Build,
    let u := trainCommand bd pc out s
    let i := BitVec.ofNat 32 (pc.toNat % 2 ^ s.block.cfgP.toNat)
    let w := readPwt s.block i
    let hv : Nat → Int := fun j => if j = 0 then 1 else if s.block.ghr.getLsbD (j - 1) then 1 else -1
    let y : Int := ∑ j : Fin 32, if j.val < s.block.cfgG.toNat then w[j] * hv j.val else 0
    let t : Int := if out = .taken then 1 else -1
    let trains : Prop := ¬ (0 ≤ y ↔ out = .taken) ∨ |y| ≤ bd.theta
    Answers s u .ok .notTaken ∧
      (trains → ∀ j : Fin 32, (readPwt u.block i)[j] =
        if j.val < s.block.cfgG.toNat
        then max (-(2 ^ (bd.wbits - 1))) (min (2 ^ (bd.wbits - 1) - 1) (w[j] + t * hv j.val)) else w[j]) ∧
      (¬ trains → readPwt u.block i = w) ∧
      (∀ k, k ≠ i → readPwt u.block k = readPwt s.block k) ∧
      u.block.ghr.toNat = (2 * s.block.ghr.toNat + (if out = .taken then 1 else 0)) % 2 ^ s.block.cfgG.toNat ∧
      u.block = { s.block with pwt := u.block.pwt, ghr := u.block.ghr }

/-- With every weight of the addressed vector 0, PREDICT answers Taken (the tie at y = 0), whatever the history
(R208 (a)). -/
def Obligations.ZeroWeightsPredictTaken : Prop :=
  ∀ (s : State) (pc : Word), Active s .perceptron →
    (∀ j : Fin 32, (readPwt s.block (pcIndex s.block pc))[j] = 0) →
    ∃ t, exec (.predict pc) s = .next t ∧ t.block = s.block ∧ Answers s t .ok .taken

/-- For every build, with weights of WBITS bits: the products and the dot product of H weights, 1 <= H <= 32, lie within the
bounds of R203, so that an accumulator of ACC_BITS bits, or of any width of at least WBITS + 5, that wraps holds the exact
sum; the empty sum is 0; and both ends are reached at H = 32, by weights that a build can hold (R203). -/
def Obligations.AccumulatorNeverOverflows : Prop :=
  ∀ (bd : Build),
    (∀ (w : WeightVec) (ghr : History), (∀ j : Fin 32, -(2 ^ (bd.wbits - 1)) ≤ w[j] ∧ w[j] ≤ 2 ^ (bd.wbits - 1) - 1) →
      (-(2 ^ (bd.wbits - 1)) ≤ product w ghr 0 ∧ product w ghr 0 ≤ 2 ^ (bd.wbits - 1) - 1) ∧
      (∀ i, -(2 ^ (bd.wbits - 1)) ≤ product w ghr i ∧ product w ghr i ≤ 2 ^ (bd.wbits - 1)) ∧
      ∀ h : Nat, h ≤ 32 →
        (1 ≤ h → -((h : Int) * 2 ^ (bd.wbits - 1)) ≤ dot w ghr h ∧ dot w ghr h ≤ (h : Int) * 2 ^ (bd.wbits - 1) - 1) ∧
        (∀ n, bd.wbits + 5 ≤ n → (accumulate n w ghr h).toInt = dot w ghr h) ∧
        (accumulate bd.accBits w ghr h).toInt = dot w ghr h) ∧
    (∀ (w : WeightVec) (ghr : History), dot w ghr 0 = 0) ∧
    (∃ (w : WeightVec) (ghr : History), (∀ j : Fin 32, wMin bd.wbits ≤ w[j] ∧ w[j] ≤ wMax bd.wbits) ∧
      dot w ghr 32 = -(2 ^ (bd.wbits + 4))) ∧
    (∃ (w : WeightVec) (ghr : History), (∀ j : Fin 32, wMin bd.wbits ≤ w[j] ∧ w[j] ≤ wMax bd.wbits) ∧
      dot w ghr 32 = 2 ^ (bd.wbits + 4) - 1)

/-- For every weight width of at least 2 bits, a step by +1 or -1 moves a weight of that width by exactly that, unless the
weight is already at the bound in that direction, in which case it is unchanged (R7, R205). -/
def Obligations.WeightMovesByOneOrSaturates : Prop :=
  ∀ (n : Nat) (w : Int), 2 ≤ n → -(2 ^ (n - 1)) ≤ w → w ≤ 2 ^ (n - 1) - 1 →
    (w < 2 ^ (n - 1) - 1 → weightStep n w 1 = w + 1) ∧ (w = 2 ^ (n - 1) - 1 → weightStep n w 1 = w) ∧
    (-(2 ^ (n - 1)) < w → weightStep n w (-1) = w - 1) ∧ (w = -(2 ^ (n - 1)) → weightStep n w (-1) = w)

/-- THETA may be any integer: for THETA < 0 the confidence test never holds, so a correctly predicted TRAIN changes
GHR alone; and for every THETA a correct prediction with abs(y) above THETA changes no weight and still shifts GHR
(R208 (b), R209). -/
def Obligations.ConfidentCorrectTrainOnlyShifts : Prop :=
  ∀ (bd : Build) (b : Block) (pc : Word) (out : Outcome), (0 ≤ percY b pc ↔ out = .taken) →
    (bd.theta < 0 → percTrain bd b pc out = shiftGhr b out) ∧
    (bd.theta < |percY b pc| → percTrain bd b pc out = shiftGhr b out)

/-! ### The shared state machines -/

/-- The laws of ctr_next: three Taken reach StronglyTaken from any state and more leave it, the state stays within 0..3,
Taken never decreases it, symmetrically for NotTaken, and taken(ctr_next(c, o)) = o from the weak states and from the
strong state on o's side (R106). -/
def Obligations.SaturatingCounterLaws : Prop :=
  (∀ (c : Counter) (n : Nat), 3 ≤ n → (fun x => ctrNext x .taken)^[n] c = .ST) ∧
  (∀ (c : Counter) (n : Nat), 3 ≤ n → (fun x => ctrNext x .notTaken)^[n] c = .SN) ∧
  (∀ (c : Counter) (os : List Outcome), 0 ≤ (counterBits (os.foldl ctrNext c)).toNat ∧
    (counterBits (os.foldl ctrNext c)).toNat ≤ 3) ∧
  (∀ (c : Counter) (m n : Nat), m ≤ n → (counterBits ((fun x => ctrNext x .taken)^[m] c)).toNat ≤
    (counterBits ((fun x => ctrNext x .taken)^[n] c)).toNat) ∧
  (∀ (c : Counter) (m n : Nat), m ≤ n → (counterBits ((fun x => ctrNext x .notTaken)^[n] c)).toNat ≤
    (counterBits ((fun x => ctrNext x .notTaken)^[m] c)).toNat) ∧
  (∀ (c : Counter) (o : Outcome), (c = .WN ∨ c = .WT ∨ (c = .SN ∧ o = .notTaken) ∨ (c = .ST ∧ o = .taken)) →
    taken (ctrNext c o) = o)

/-- The counter and the choice counter are saturating counters in their encodings: Taken is bit 1 of a counter state,
favoring local is bit 1 of a choice state being 0, and a transition moves one step, saturating at 0 and 3 (R100 to R103). -/
def Obligations.CounterAndChoiceCountAndSaturate : Prop :=
  (∀ c : Counter, taken c = .taken ↔ (counterBits c).getLsbD 1 = true) ∧
  (∀ (c : Counter) (o : Outcome),
    (counterBits (ctrNext c o)).toNat = saturate (counterBits c).toNat (decide (o = .taken))) ∧
  (∀ c : Choice, favorsLocal c = true ↔ (choiceBits c).getLsbD 1 = false) ∧
  (∀ (c : Choice) (gOk : Bool), (choiceBits (choiceNext c gOk)).toNat = saturate (choiceBits c).toNat gOk)

/-- The history shift of a W-bit history: the outcome enters at bit 0, every bit moves up by one, and bits at and above
W are 0; W = 0 gives 0 (R104). -/
def Obligations.HistoryShiftInsertsAtBitZero : Prop :=
  ∀ (h : History) (o : Outcome) (w : Width), w.toNat ≤ 32 →
    ∀ i : Nat, (hshift h o w).getLsbD i =
      (decide (i < w.toNat) && (if i = 0 then decide (o = .taken) else h.getLsbD (i - 1)))

/-- After W shifts by the outcomes o_1 to o_W, bit i of a W-bit history is o_(W-i), whatever it started from (R105). -/
def Obligations.HistoryHoldsTheLastOutcomes : Prop :=
  ∀ (h : History) (w : Width) (os : List Outcome), w.toNat ≤ 32 → os.length = w.toNat →
    ∀ i : Nat, i < w.toNat →
      (os.foldl (fun x o => hshift x o w) h).getLsbD i = decide (os[w.toNat - 1 - i]? = some .taken)

/-! ### Invariants and whole-machine rules -/

/-- Every step of this hardware, and of the machine of every build, keeps the invariant of its build: legal widths, GHR
within G bits, canonical tables, local histories within their width, every weight within WBITS bits (R208 (c)), and no entry
written outside the live part of a table (R24, R26 to R32, R36). -/
def Obligations.EveryStepKeepsTheInvariant : Prop :=
  (∀ s t : State, Inv Config.build s.block → step s = .next t → Inv Config.build t.block) ∧
  (∀ (bd : Build) (s t : State), Inv bd s.block → stepOn bd s = .next t → Inv bd t.block)

/-- The invariant of every build holds right after reset. That the tables then read as their INIT values is the model's
choice (log 4). -/
def Obligations.ResetMeetsTheInvariant : Prop := ∀ bd : Build, Inv bd State.reset.block

/-- Under the invariant every table index is in range of the active part of its table, and so of the built table (R62). -/
def Obligations.EveryIndexIsInRange : Prop :=
  ∀ (bd : Build) (b : Block) (pc : Word), Inv bd b → b.cfgValid = true →
    ((gshareIndex b pc).toNat < 2 ^ b.cfgG.toNat ∧ (pcIndex b pc).toNat < 2 ^ b.cfgP.toNat ∧
      (readLht b (pcIndex b pc)).toNat < 2 ^ b.cfgL.toNat ∧ b.ghr.toNat < 2 ^ b.cfgG.toNat) ∧
    (2 ^ b.cfgG.toNat ≤ 2 ^ bd.gMax ∧ 2 ^ b.cfgL.toNat ≤ 2 ^ bd.lMax ∧ 2 ^ b.cfgP.toNat ≤ 2 ^ bd.pMax)

/-- Zero widths: with G = 0, GHR is 0, every pc has the Gshare index 0 and the perceptron sum is 0; with L = 0 every
local history is 0; with P = 0 every pc has the LHT and PWT index 0 (R124). -/
def Obligations.ZeroWidthsDegenerate : Prop :=
  ∀ (bd : Build) (b : Block) (pc : Word), Inv bd b → b.cfgValid = true →
    (b.cfgG = 0#6 → b.ghr = 0#32 ∧ gshareIndex b pc = 0#32 ∧ percY b pc = 0) ∧
    (b.cfgL = 0#6 → ∀ i, readLht b i = 0#32) ∧
    (b.cfgP = 0#6 → pcIndex b pc = 0#32)

/-- The sticky error record: once set it is never cleared; the first non-OK response sets it, with the command's index
and STATUS; an OK response, an idle step and a reset leave it (R236). The index counts accepted commands from 1: the
model's choice (log 9). -/
def Obligations.FirstErrorIsSticky : Prop :=
  ∀ s t : State, step s = .next t →
    (∀ e, s.firstError = some e → t.firstError = some e) ∧
    (s.firstError = none → ∀ w rest r, s.host = .command w :: rest → t.rsp = some r →
      (r.toNat / 2 = 0 → t.firstError = none) ∧
      (r.toNat / 2 ≠ 0 → ∃ st, t.firstError = some ⟨s.accepted + 1, st⟩ ∧ (statusBits st).toNat = r.toNat / 2)) ∧
    ((∀ w rest, s.host ≠ .command w :: rest) → t.firstError = s.firstError)

/-- What a command does to the block and what it answers depend on the block and the command alone, not on the earlier
responses, the host's other commands or any other record (R25, R107). -/
def Obligations.CommandDependsOnTheBlockAlone : Prop :=
  ∀ (s u : State) (i : Instr), s.block = u.block →
    ∃ t v, exec i s = .next t ∧ exec i u = .next v ∧ t.block = v.block ∧ t.rsp = v.rsp

/-- Nothing the host can do lets it observe what an unconfigured block holds: two unconfigured blocks, whatever their
registers and tables, given the same inputs, answer the same responses for ever (R38, R232). -/
def Obligations.UnconfiguredContentsAreUnobservable : Prop :=
  ∀ (s u : State), s.block.cfgValid = false → u.block.cfgValid = false → s.host = u.host →
    ∀ n : Nat, ∃ t v new, Sys2Proof.core.run n s = .next t ∧ Sys2Proof.core.run n u = .next v ∧
      t.trace = s.trace ++ new ∧ v.trace = u.trace ++ new

/-- Replay: two instances, whatever they hold, that receive the same successful INIT and then the same commands answer
the same responses, and their blocks stay equal (R107, R123, R242). -/
def Obligations.ReplayAfterInitIsDeterministic : Prop :=
  ∀ (s u : State) (m : Mode) (g l p : Width) (ws : List CmdWord), g.toNat ≤ 32 → l.toNat ≤ 32 → p.toNat ≤ 32 →
    s.host = .command (encode (initOf m g l p)) :: ws.map .command → u.host = s.host →
    ∀ n : Nat, ∃ t v new, Sys2Proof.core.run (n + 1) s = .next t ∧ Sys2Proof.core.run (n + 1) u = .next v ∧
      t.trace = s.trace ++ new ∧ v.trace = u.trace ++ new ∧ t.block = v.block

/-! ### The assembler's text form -/

/-- `.word64` is the only line that writes a reserved encoding or a MODE of 4..7; and a line assembles if and only if every
number it gives fits its field, the pc 32 bits, each width 6 bits (0..63) (R91), and the value of `.word64` 64 bits: that
last clause, about `.word64`, is the model's choice (log 12), since R91 states the refusal of a pc and of a width only. -/
def Obligations.OnlyWord64WritesReservedWords : Prop :=
  (∀ (a : AsmLine) (ws : List CmdWord), assemble a = some ws → (∀ v, a ≠ .word64 v) →
    ∀ w ∈ ws, ∃ i, decode w = .instr i ∧ (∀ rest, i ≠ .reservedOp rest) ∧
      (∀ mode g l p, i ≠ .initUnknownMode mode g l p)) ∧
  (∀ (m : Mode) (g l p : Option Nat), (∃ ws, assemble (.init m g l p) = some ws) ↔
    (∀ n, g = some n → n < 64) ∧ (∀ n, l = some n → n < 64) ∧ (∀ n, p = some n → n < 64)) ∧
  (∀ pc : Nat, (∃ ws, assemble (.predict pc) = some ws) ↔ pc < 2 ^ 32) ∧
  (∀ (pc : Nat) (out : Outcome), (∃ ws, assemble (.train pc out) = some ws) ↔ pc < 2 ^ 32) ∧
  (∀ (pc : Nat) (out : Outcome), (∃ ws, assemble (.branch pc out) = some ws) ↔ pc < 2 ^ 32) ∧
  (∀ v : Nat, (∃ ws, assemble (.word64 v) = some ws) ↔ v < 2 ^ 64)

/-- `branch <pc>, <t|n>` expands to `predict <pc>` and then `train <pc>, <t|n>` (R92). -/
def Obligations.BranchExpandsToPredictThenTrain : Prop :=
  ∀ (pc : Nat) (out : Outcome),
    assemble (.branch pc out) = (do some ((← assemble (.predict pc)) ++ (← assemble (.train pc out))))
end

