-- ==== Sys2Proof/Laws/Counters.lean ====
section
/-! SUPPORT. The laws of masks, the history shift, the counters and the weight step, stated in numbers. -/

namespace Sys2Proof.Machine

/-! ### Masks -/

theorem mask_toNat {w : Width} (h : w.toNat ≤ 32) : (mask w).toNat = 2 ^ w.toNat - 1 := by
  have : 2 ^ w.toNat ≤ 2 ^ 32 := Nat.pow_le_pow_right (by norm_num) h
  have h0 : 0 < 2 ^ w.toNat := Nat.two_pow_pos _
  simp only [mask, BitVec.toNat_ofNat]
  exact Nat.mod_eq_of_lt (by omega)

/-- Masking is a remainder (R10). -/
theorem and_mask_toNat (x : Word) {w : Width} (h : w.toNat ≤ 32) :
    (x &&& mask w).toNat = x.toNat % 2 ^ w.toNat := by
  rw [BitVec.toNat_and, mask_toNat h, Nat.and_two_pow_sub_one_eq_mod]

theorem and_mask_lt (x : Word) {w : Width} (h : w.toNat ≤ 32) : (x &&& mask w).toNat < 2 ^ w.toNat := by
  rw [and_mask_toNat x h]; exact Nat.mod_lt _ (Nat.two_pow_pos _)

theorem mask_zero : mask 0#6 = 0#32 := rfl

/-- What is masked has no bit outside the mask. -/
@[simp] theorem and_mask_and_not_mask (x : Word) (w : Width) : (x &&& mask w) &&& ~~~ mask w = 0#32 := by
  rw [BitVec.and_assoc, BitVec.and_not_self]; simp

/-- A word without a bit outside the mask is its own masked value. -/
theorem and_mask_of_masked {x : Word} {w : Width} (h : x &&& ~~~ mask w = 0#32) : x &&& mask w = x := by
  have hx : x &&& mask w ||| x &&& ~~~ mask w = x := by
    rw [← BitVec.and_or_distrib_left, BitVec.or_not_self, BitVec.and_allOnes]
  rwa [h, BitVec.or_zero] at hx

theorem lt_of_masked {x : Word} {w : Width} (hw : w.toNat ≤ 32) (h : x &&& ~~~ mask w = 0#32) :
    x.toNat < 2 ^ w.toNat := by
  rw [← and_mask_of_masked h]; exact and_mask_lt x hw

/-! ### The history shift -/

@[simp] theorem hshift_masked (h : History) (o : Outcome) (w : Width) : hshift h o w &&& ~~~ mask w = 0#32 := by
  simp only [hshift, and_mask_and_not_mask]

theorem shiftIn_toNat (h : History) (o : Outcome) :
    ((h <<< 1) ||| (outcomeBit o).setWidth 32).toNat = (2 * h.toNat + (outcomeBit o).toNat) % 2 ^ 32 := by
  have hor : (h <<< 1) ||| (outcomeBit o).setWidth 32 = (h <<< 1) + (outcomeBit o).setWidth 32 := by
    apply (BitVec.add_eq_or_of_and_eq_zero _ _ _).symm
    ext i hi
    cases o <;> simp [outcomeBit]
    omega
  rw [hor]
  cases o <;> simp [outcomeBit, Nat.shiftLeft_eq, Nat.mul_comm]

/-- The history shift, in numbers (R104). -/
theorem hshift_toNat (h : History) (o : Outcome) {w : Width} (hw : w.toNat ≤ 32) :
    (hshift h o w).toNat = (2 * h.toNat + (outcomeBit o).toNat) % 2 ^ w.toNat := by
  rw [hshift, and_mask_toNat _ hw, shiftIn_toNat, Nat.mod_mod_of_dvd _ (Nat.pow_dvd_pow 2 hw)]

/-! ### The counters, in numbers -/

theorem counterBits_ctrNext_taken (c : Counter) :
    (counterBits (ctrNext c .taken)).toNat = min ((counterBits c).toNat + 1) 3 := by cases c <;> rfl

theorem counterBits_ctrNext_notTaken (c : Counter) :
    (counterBits (ctrNext c .notTaken)).toNat = (counterBits c).toNat - 1 := by cases c <;> rfl

theorem choiceBits_choiceNext_true (c : Choice) :
    (choiceBits (choiceNext c true)).toNat = min ((choiceBits c).toNat + 1) 3 := by cases c <;> rfl

theorem choiceBits_choiceNext_false (c : Choice) :
    (choiceBits (choiceNext c false)).toNat = (choiceBits c).toNat - 1 := by cases c <;> rfl

theorem taken_eq_taken_iff (c : Counter) : taken c = .taken ↔ c = .WT ∨ c = .ST := by cases c <;> simp [taken]

theorem outcome_ne_taken (o : Outcome) : o ≠ .taken ↔ o = .notTaken := by cases o <;> simp

/-! ### The weight step -/

theorem clamp_mem {lo hi : Int} (h : lo ≤ hi) (v : Int) : lo ≤ clamp v lo hi ∧ clamp v lo hi ≤ hi := by
  unfold clamp; omega

theorem wMin_lt_wMax {wbits : Nat} (h : 2 ≤ wbits) : wMin wbits ≤ -2 ∧ 1 ≤ wMax wbits := by
  have : (2 : Int) ^ 1 ≤ 2 ^ (wbits - 1) := pow_le_pow_right₀ (by norm_num) (by omega)
  unfold wMin wMax; omega

/-- WMAX is one less than the opposite of WMIN. -/
theorem wMax_eq (wbits : Nat) : wMax wbits = -wMin wbits - 1 := by unfold wMin wMax; ring

/-- Whatever is clipped fits in WBITS bits (R205). -/
theorem clipWeight_mem (wbits : Nat) (v : Int) : wMin wbits ≤ clipWeight wbits v ∧ clipWeight wbits v ≤ wMax wbits := by
  have : (0 : Int) < 2 ^ (wbits - 1) := by positivity
  exact clamp_mem (by unfold wMin wMax; omega) v

theorem updateWeights_get (wbits : Nat) (w : WeightVec) (ghr : History) (h : Nat) (o : Outcome) (j : Fin 32) :
    (updateWeights wbits w ghr h o)[j] =
      if j.val < h then clipWeight wbits (w[j] + target o * historyEntry ghr j.val) else w[j] := by
  simp [updateWeights, weightStep]

theorem builtWeights_get (bd : Build) (w : WeightVec) (j : Fin 32) :
    (builtWeights bd w)[j] = if j.val < bd.gMax then clipWeight bd.wbits w[j] else 0 := by
  simp [builtWeights]

theorem zeroWeights_get (j : Fin 32) : zeroWeights[j] = 0 := by simp [zeroWeights]

theorem historyEntry_cases (ghr : History) (i : Nat) : historyEntry ghr i = 1 ∨ historyEntry ghr i = -1 := by
  cases i with
  | zero => exact .inl rfl
  | succ i => simp only [historyEntry]; split <;> simp

/-- A weight of a vector whose weights all lie within bounds around 0 does too, wherever it is read. -/
theorem weightAt_mem {w : WeightVec} {lo hi : Int} (hlo : lo ≤ 0) (hhi : 0 ≤ hi)
    (h : ∀ j : Fin 32, lo ≤ w[j] ∧ w[j] ≤ hi) (i : Nat) : lo ≤ weightAt w i ∧ weightAt w i ≤ hi := by
  unfold weightAt
  by_cases hi' : i < 32
  · simpa [hi'] using h ⟨i, hi'⟩
  · simpa [hi'] using ⟨hlo, hhi⟩

@[simp] theorem dot_zero (w : WeightVec) (ghr : History) : dot w ghr 0 = 0 := rfl

theorem dot_succ (w : WeightVec) (ghr : History) (h : Nat) :
    dot w ghr (h + 1) = dot w ghr h + weightAt w h * historyEntry ghr h := by
  simp [dot, product, List.range_succ]

@[simp] theorem accumulate_zero (n : Nat) (w : WeightVec) (ghr : History) : accumulate n w ghr 0 = 0#n := rfl

theorem accumulate_succ (n : Nat) (w : WeightVec) (ghr : History) (h : Nat) :
    accumulate n w ghr (h + 1) = accumulate n w ghr h + BitVec.ofInt n (weightAt w h * historyEntry ghr h) := by
  simp [accumulate, product, List.range_succ]

end Sys2Proof.Machine
end

