-- ==== Sys2Proof/Laws/Decode.lean ====
section
/-! SUPPORT. The fields of a word that concatenation built, and of the encoder's words. -/

namespace Sys2Proof

/-- A field of a word, in numbers. -/
theorem field_toNat (w : CmdWord) (lo n : Nat) : (w.extractLsb' lo n).toNat = w.toNat / 2 ^ lo % 2 ^ n := by
  rw [BitVec.extractLsb'_toNat, Nat.shiftRight_eq_div_pow]

/-- Concatenation, in numbers. -/
theorem append_toNat {m n : Nat} (x : BitVec m) (y : BitVec n) : (x ++ y).toNat = x.toNat * 2 ^ n + y.toNat := by
  rw [BitVec.toNat_append, Nat.shiftLeft_eq, Nat.mul_comm, ← Nat.two_pow_add_eq_or_of_lt y.isLt]

@[simp] theorem outcomeOfBit_outcomeBit (o : Outcome) : outcomeOfBit (outcomeBit o) = o := by cases o <;> rfl

@[simp] theorem modeOfBits_modeBits (m : Mode) : modeOfBits (modeBits m) = some m := by cases m <;> rfl

theorem modeOfBits_eq_none_iff (b : BitVec 3) : modeOfBits b = none ↔ 4 ≤ b.toNat := by
  revert b; decide

theorem modeBits_of_modeOfBits {b : BitVec 3} {m : Mode} (h : modeOfBits b = some m) : b = modeBits m := by
  revert b m; intro b m h
  unfold modeOfBits at h
  split at h
  · cases h; assumption
  · split at h
    · cases h; assumption
    · split at h
      · cases h; assumption
      · split at h
        · cases h; assumption
        · cases h

theorem encodeInit_toNat (mode : BitVec 3) (g l p : Width) :
    (encodeInit mode g l p).toNat = p.toNat * 2 ^ 17 + l.toNat * 2 ^ 11 + g.toNat * 2 ^ 5 + mode.toNat * 2 ^ 2 := by
  simp only [encodeInit, append_toNat, BitVec.toNat_ofNat]
  omega

theorem encode_predict_toNat (pc : Word) : (encode (.predict pc)).toNat = pc.toNat * 2 ^ 32 + 1 := by
  simp only [encode, append_toNat, BitVec.toNat_ofNat]; omega

theorem encode_train_toNat (pc : Word) (o : Outcome) :
    (encode (.train pc o)).toNat = pc.toNat * 2 ^ 32 + (outcomeBit o).toNat * 4 + 2 := by
  simp only [encode, append_toNat, BitVec.toNat_ofNat]; omega

theorem encode_reservedOp_toNat (rest : BitVec 62) : (encode (.reservedOp rest)).toNat = rest.toNat * 4 + 3 := by
  simp only [encode, append_toNat, BitVec.toNat_ofNat]; omega

/-- A word equals the number it is congruent to. -/
theorem eq_ofNat_of_toNat {n : Nat} {x : BitVec n} {k : Nat} (h : x.toNat = k % 2 ^ n) : x = BitVec.ofNat n k :=
  BitVec.eq_of_toNat_eq (by simpa using h)

/-- A field of a word, as a number of the word. -/
theorem field_eq_ofNat (w : CmdWord) (lo n : Nat) : w.extractLsb' lo n = BitVec.ofNat n (w.toNat / 2 ^ lo) :=
  eq_ofNat_of_toNat (field_toNat w lo n)

theorem ofNat_eq_ofNat_iff {n a b : Nat} (hb : b < 2 ^ n) : BitVec.ofNat n a = BitVec.ofNat n b ↔ a % 2 ^ n = b := by
  rw [← BitVec.toNat_inj, BitVec.toNat_ofNat, BitVec.toNat_ofNat, Nat.mod_eq_of_lt hb]

theorem opField_eq_iff (w : CmdWord) (k : Nat) (hk : k < 4) : opField w = BitVec.ofNat 2 k ↔ w.toNat % 4 = k := by
  rw [opField, field_eq_ofNat, ofNat_eq_ofNat_iff (by simpa using hk)]; simp

/-- All the decoder can do, each case by the number of the word: later proofs cite it and never unfold `decode`. -/
theorem decode_cases (w : CmdWord) :
    (w.toNat % 4 = 0 → w.toNat / 2 ^ 23 ≠ 0 → decode w = .illegal .initReserved) ∧
    (w.toNat % 4 = 0 → w.toNat / 2 ^ 23 = 0 → decode w = .instr (decodeInit (BitVec.ofNat 3 (w.toNat / 4))
      (BitVec.ofNat 6 (w.toNat / 2 ^ 5)) (BitVec.ofNat 6 (w.toNat / 2 ^ 11)) (BitVec.ofNat 6 (w.toNat / 2 ^ 17)))) ∧
    (w.toNat % 4 = 1 → w.toNat / 4 % 2 ^ 30 ≠ 0 → decode w = .illegal .predictReserved) ∧
    (w.toNat % 4 = 1 → w.toNat / 4 % 2 ^ 30 = 0 → decode w = .instr (.predict (BitVec.ofNat 32 (w.toNat / 2 ^ 32)))) ∧
    (w.toNat % 4 = 2 → w.toNat / 8 % 2 ^ 29 ≠ 0 → decode w = .illegal .trainReserved) ∧
    (w.toNat % 4 = 2 → w.toNat / 8 % 2 ^ 29 = 0 → decode w = .instr (.train (BitVec.ofNat 32 (w.toNat / 2 ^ 32))
      (outcomeOfBit (BitVec.ofNat 1 (w.toNat / 4))))) ∧
    (w.toNat % 4 = 3 → decode w = .instr (.reservedOp (BitVec.ofNat 62 (w.toNat / 4)))) := by
  have h0 := opField_eq_iff w 0 (by norm_num)
  have h1 := opField_eq_iff w 1 (by norm_num)
  have h2 := opField_eq_iff w 2 (by norm_num)
  have r0 : w.extractLsb' 23 41 = 0#41 ↔ w.toNat / 2 ^ 23 = 0 := by
    rw [field_eq_ofNat, ofNat_eq_ofNat_iff (by norm_num)]
    have := w.isLt; omega
  have r1 : w.extractLsb' 2 30 = 0#30 ↔ w.toNat / 4 % 2 ^ 30 = 0 := by
    rw [field_eq_ofNat, ofNat_eq_ofNat_iff (by norm_num)]; norm_num
  have r2 : w.extractLsb' 3 29 = 0#29 ↔ w.toNat / 8 % 2 ^ 29 = 0 := by
    rw [field_eq_ofNat, ofNat_eq_ofNat_iff (by norm_num)]; norm_num
  unfold decode
  simp only [h0, h1, h2, r0, r1, r2]
  refine ⟨?_, ?_, ?_, ?_, ?_, ?_, ?_⟩
  · intro h h'; rw [if_pos h, if_neg h']
  · intro h h'; rw [if_pos h, if_pos h']; simp only [modeField, gField, lField, pField, field_eq_ofNat]; norm_num
  · intro h h'; rw [if_neg (by omega), if_pos h, if_neg h']
  · intro h h'; rw [if_neg (by omega), if_pos h, if_pos h']; simp only [pcField, field_eq_ofNat]
  · intro h h'; rw [if_neg (by omega), if_neg (by omega), if_pos h, if_neg h']
  · intro h h'
    rw [if_neg (by omega), if_neg (by omega), if_pos h, if_pos h']
    simp only [pcField, outField, field_eq_ofNat]; norm_num
  · intro h; rw [if_neg (by omega), if_neg (by omega), if_neg (by omega)]; simp only [field_eq_ofNat]; norm_num

end Sys2Proof
end

