-- ==== Sys2Proof/Laws/PerInstr.lean ====
section
/-! SUPPORT. What holds of every command as syntax, one lemma for each constructor (R81, R89, R90). -/

namespace Sys2Proof.Laws

/-- The OP field of a command's word, by its format (R81). -/
def opOf : Instr → Nat
  | .initStatic _ _ _ => 0
  | .initGshare _ _ _ => 0
  | .initTournament _ _ _ => 0
  | .initPerceptron _ _ _ => 0
  | .initUnknownMode _ _ _ _ => 0
  | .predict _ => 1
  | .train _ _ => 2
  | .reservedOp _ => 3

/-- Where the RSVD field of a command's format starts (R82, R83, R89); the reserved command has none. -/
def rsvdLow : Instr → Nat
  | .initStatic _ _ _ => 23
  | .initGshare _ _ _ => 23
  | .initTournament _ _ _ => 23
  | .initPerceptron _ _ _ => 23
  | .initUnknownMode _ _ _ _ => 23
  | .predict _ => 2
  | .train _ _ => 3
  | .reservedOp _ => 64

/-- How many bits the RSVD field of a command's format has (R82, R83, R89). -/
def rsvdWidth : Instr → Nat
  | .initStatic _ _ _ => 41
  | .initGshare _ _ _ => 41
  | .initTournament _ _ _ => 41
  | .initPerceptron _ _ _ => 41
  | .initUnknownMode _ _ _ _ => 41
  | .predict _ => 30
  | .train _ _ => 29
  | .reservedOp _ => 0

/-- The encoder puts each command's OP in bits 1:0, and writes 0 in the RSVD field of its format (R81, R89). -/
def EncodeKeepsTheFormat.Statement (i : Instr) : Prop :=
  (encode i).toNat % 4 = opOf i ∧ (encode i).toNat / 2 ^ rsvdLow i % 2 ^ rsvdWidth i = 0

/-- The same of every format I word. -/
theorem encodeInit_format (mode : BitVec 3) (g l p : Width) :
    (encodeInit mode g l p).toNat % 4 = 0 ∧ (encodeInit mode g l p).toNat / 2 ^ 23 % 2 ^ 41 = 0 := by
  have hw := encodeInit_toNat mode g l p
  have hm := mode.isLt; have hg := g.isLt; have hl := l.isLt; have hp := p.isLt
  constructor <;> omega

theorem EncodeKeepsTheFormat.initStatic (g l p : Width) : EncodeKeepsTheFormat.Statement (.initStatic g l p) :=
  encodeInit_format _ g l p

theorem EncodeKeepsTheFormat.initGshare (g l p : Width) : EncodeKeepsTheFormat.Statement (.initGshare g l p) :=
  encodeInit_format _ g l p

theorem EncodeKeepsTheFormat.initTournament (g l p : Width) :
    EncodeKeepsTheFormat.Statement (.initTournament g l p) := encodeInit_format _ g l p

theorem EncodeKeepsTheFormat.initPerceptron (g l p : Width) :
    EncodeKeepsTheFormat.Statement (.initPerceptron g l p) := encodeInit_format _ g l p

theorem EncodeKeepsTheFormat.initUnknownMode (mode : BitVec 3) (g l p : Width) :
    EncodeKeepsTheFormat.Statement (.initUnknownMode mode g l p) := encodeInit_format mode g l p

theorem EncodeKeepsTheFormat.predict (pc : Word) : EncodeKeepsTheFormat.Statement (.predict pc) := by
  have hw := encode_predict_toNat pc
  have := pc.isLt
  constructor <;> simp only [opOf, rsvdLow, rsvdWidth] <;> omega

theorem EncodeKeepsTheFormat.train (pc : Word) (out : Outcome) : EncodeKeepsTheFormat.Statement (.train pc out) := by
  have hw := encode_train_toNat pc out
  have := pc.isLt
  have := (outcomeBit out).isLt
  constructor <;> simp only [opOf, rsvdLow, rsvdWidth] <;> omega

theorem EncodeKeepsTheFormat.reservedOp (rest : BitVec 62) : EncodeKeepsTheFormat.Statement (.reservedOp rest) := by
  have hw := encode_reservedOp_toNat rest
  constructor
  · simp only [opOf]; omega
  · exact Nat.mod_one _

end Sys2Proof.Laws
end

