-- ==== Sys2Proof/Laws/State.lean ====
section
/-! SUPPORT. What each named update does to each field of the state and of the block, one lemma per field, true by
unfolding the update once, so that no later proof unfolds it. -/

namespace Sys2Proof.Machine

variable (s : State) (b : Block) (st : Status) (o : Outcome) (rest : List HostInput) (i : Word)

/-! ### respond -/

@[simp] theorem respond_block : (respond st o s).block = s.block := rfl
@[simp] theorem respond_host : (respond st o s).host = s.host := rfl
@[simp] theorem respond_rsp : (respond st o s).rsp = some (rspWord st o) := rfl
@[simp] theorem respond_trace : (respond st o s).trace = s.trace ++ [rspWord st o] := rfl
@[simp] theorem respond_accepted : (respond st o s).accepted = s.accepted := rfl
@[simp] theorem respond_firstError : (respond st o s).firstError = recordError s.firstError s.accepted st := rfl
@[simp] theorem respond_freeCount : (respond st o s).freeCount = s.freeCount := rfl

/-! ### acceptCommand -/

@[simp] theorem acceptCommand_block : (acceptCommand rest s).block = s.block := rfl
@[simp] theorem acceptCommand_host : (acceptCommand rest s).host = rest := rfl
@[simp] theorem acceptCommand_rsp : (acceptCommand rest s).rsp = s.rsp := rfl
@[simp] theorem acceptCommand_trace : (acceptCommand rest s).trace = s.trace := rfl
@[simp] theorem acceptCommand_accepted : (acceptCommand rest s).accepted = s.accepted + 1 := rfl
@[simp] theorem acceptCommand_firstError : (acceptCommand rest s).firstError = s.firstError := rfl
@[simp] theorem acceptCommand_freeCount : (acceptCommand rest s).freeCount = s.freeCount := rfl

/-! ### idle -/

@[simp] theorem idle_block : (idle s).block = s.block := rfl
@[simp] theorem idle_host : (idle s).host = s.host := rfl
@[simp] theorem idle_rsp : (idle s).rsp = none := rfl
@[simp] theorem idle_trace : (idle s).trace = s.trace := rfl
@[simp] theorem idle_accepted : (idle s).accepted = s.accepted := rfl
@[simp] theorem idle_firstError : (idle s).firstError = s.firstError := rfl
@[simp] theorem idle_freeCount : (idle s).freeCount = s.freeCount := rfl

/-! ### hardwareReset and resetRegisters -/

@[simp] theorem hardwareReset_block : (hardwareReset rest s).block = resetRegisters s.block := rfl
@[simp] theorem hardwareReset_host : (hardwareReset rest s).host = rest := rfl
@[simp] theorem hardwareReset_rsp : (hardwareReset rest s).rsp = none := rfl
@[simp] theorem hardwareReset_trace : (hardwareReset rest s).trace = s.trace := rfl
@[simp] theorem hardwareReset_accepted : (hardwareReset rest s).accepted = s.accepted := rfl
@[simp] theorem hardwareReset_firstError : (hardwareReset rest s).firstError = s.firstError := rfl
@[simp] theorem hardwareReset_freeCount : (hardwareReset rest s).freeCount = s.freeCount := rfl

@[simp] theorem resetRegisters_cfgValid : (resetRegisters b).cfgValid = false := rfl
@[simp] theorem resetRegisters_cfgMode : (resetRegisters b).cfgMode = .static := rfl
@[simp] theorem resetRegisters_cfgG : (resetRegisters b).cfgG = 0#6 := rfl
@[simp] theorem resetRegisters_cfgL : (resetRegisters b).cfgL = 0#6 := rfl
@[simp] theorem resetRegisters_cfgP : (resetRegisters b).cfgP = 0#6 := rfl
@[simp] theorem resetRegisters_ghr : (resetRegisters b).ghr = 0#32 := rfl
@[simp] theorem resetRegisters_pht : (resetRegisters b).pht = b.pht := rfl
@[simp] theorem resetRegisters_lht : (resetRegisters b).lht = b.lht := rfl
@[simp] theorem resetRegisters_lpt : (resetRegisters b).lpt = b.lpt := rfl
@[simp] theorem resetRegisters_gpt : (resetRegisters b).gpt = b.gpt := rfl
@[simp] theorem resetRegisters_cht : (resetRegisters b).cht = b.cht := rfl
@[simp] theorem resetRegisters_pwt : (resetRegisters b).pwt = b.pwt := rfl

/-! ### abandonCommand -/

variable (bd : Build)

@[simp] theorem abandonCommand_block :
    (abandonCommand bd rest s).block = resetRegisters (freeTables bd s.freeCount s.block) := rfl
@[simp] theorem abandonCommand_host : (abandonCommand bd rest s).host = rest := rfl
@[simp] theorem abandonCommand_rsp : (abandonCommand bd rest s).rsp = none := rfl
@[simp] theorem abandonCommand_trace : (abandonCommand bd rest s).trace = s.trace := rfl
@[simp] theorem abandonCommand_accepted : (abandonCommand bd rest s).accepted = s.accepted + 1 := rfl
@[simp] theorem abandonCommand_firstError : (abandonCommand bd rest s).firstError = s.firstError := rfl
@[simp] theorem abandonCommand_freeCount : (abandonCommand bd rest s).freeCount = s.freeCount + 1 := rfl

/-! ### The errors -/

theorem illegalCommand_eq : illegalCommand s = respond .illegal .notTaken s := rfl
theorem notInitError_eq : notInitError s = respond .notInit .notTaken s := rfl
theorem configError_eq :
    configError s = respond .cfgErr .notTaken { s with block := { s.block with cfgValid := false } } := rfl

/-! ### shiftGhr, trainWeights -/

@[simp] theorem shiftGhr_cfgValid : (shiftGhr b o).cfgValid = b.cfgValid := rfl
@[simp] theorem shiftGhr_cfgMode : (shiftGhr b o).cfgMode = b.cfgMode := rfl
@[simp] theorem shiftGhr_cfgG : (shiftGhr b o).cfgG = b.cfgG := rfl
@[simp] theorem shiftGhr_cfgL : (shiftGhr b o).cfgL = b.cfgL := rfl
@[simp] theorem shiftGhr_cfgP : (shiftGhr b o).cfgP = b.cfgP := rfl
@[simp] theorem shiftGhr_ghr : (shiftGhr b o).ghr = hshift b.ghr o b.cfgG := rfl
@[simp] theorem shiftGhr_pht : (shiftGhr b o).pht = b.pht := rfl
@[simp] theorem shiftGhr_lht : (shiftGhr b o).lht = b.lht := rfl
@[simp] theorem shiftGhr_lpt : (shiftGhr b o).lpt = b.lpt := rfl
@[simp] theorem shiftGhr_gpt : (shiftGhr b o).gpt = b.gpt := rfl
@[simp] theorem shiftGhr_cht : (shiftGhr b o).cht = b.cht := rfl
@[simp] theorem shiftGhr_pwt : (shiftGhr b o).pwt = b.pwt := rfl

@[simp] theorem trainWeights_cfgValid : (trainWeights bd b i o).cfgValid = b.cfgValid := rfl
@[simp] theorem trainWeights_cfgMode : (trainWeights bd b i o).cfgMode = b.cfgMode := rfl
@[simp] theorem trainWeights_cfgG : (trainWeights bd b i o).cfgG = b.cfgG := rfl
@[simp] theorem trainWeights_cfgL : (trainWeights bd b i o).cfgL = b.cfgL := rfl
@[simp] theorem trainWeights_cfgP : (trainWeights bd b i o).cfgP = b.cfgP := rfl
@[simp] theorem trainWeights_ghr : (trainWeights bd b i o).ghr = b.ghr := rfl
@[simp] theorem trainWeights_pht : (trainWeights bd b i o).pht = b.pht := rfl
@[simp] theorem trainWeights_lht : (trainWeights bd b i o).lht = b.lht := rfl
@[simp] theorem trainWeights_lpt : (trainWeights bd b i o).lpt = b.lpt := rfl
@[simp] theorem trainWeights_gpt : (trainWeights bd b i o).gpt = b.gpt := rfl
@[simp] theorem trainWeights_cht : (trainWeights bd b i o).cht = b.cht := rfl

/-! ### writePht -/

@[simp] theorem writePht_cfgValid (v : Counter) : (writePht b i v).cfgValid = b.cfgValid := rfl
@[simp] theorem writePht_cfgMode (v : Counter) : (writePht b i v).cfgMode = b.cfgMode := rfl
@[simp] theorem writePht_cfgG (v : Counter) : (writePht b i v).cfgG = b.cfgG := rfl
@[simp] theorem writePht_cfgL (v : Counter) : (writePht b i v).cfgL = b.cfgL := rfl
@[simp] theorem writePht_cfgP (v : Counter) : (writePht b i v).cfgP = b.cfgP := rfl
@[simp] theorem writePht_ghr (v : Counter) : (writePht b i v).ghr = b.ghr := rfl
@[simp] theorem writePht_pht (v : Counter) : (writePht b i v).pht = writeTable .WN b.pht i.toNat v := rfl
@[simp] theorem writePht_lht (v : Counter) : (writePht b i v).lht = b.lht := rfl
@[simp] theorem writePht_lpt (v : Counter) : (writePht b i v).lpt = b.lpt := rfl
@[simp] theorem writePht_gpt (v : Counter) : (writePht b i v).gpt = b.gpt := rfl
@[simp] theorem writePht_cht (v : Counter) : (writePht b i v).cht = b.cht := rfl
@[simp] theorem writePht_pwt (v : Counter) : (writePht b i v).pwt = b.pwt := rfl

/-! ### writeLht -/

@[simp] theorem writeLht_cfgValid (v : History) : (writeLht b i v).cfgValid = b.cfgValid := rfl
@[simp] theorem writeLht_cfgMode (v : History) : (writeLht b i v).cfgMode = b.cfgMode := rfl
@[simp] theorem writeLht_cfgG (v : History) : (writeLht b i v).cfgG = b.cfgG := rfl
@[simp] theorem writeLht_cfgL (v : History) : (writeLht b i v).cfgL = b.cfgL := rfl
@[simp] theorem writeLht_cfgP (v : History) : (writeLht b i v).cfgP = b.cfgP := rfl
@[simp] theorem writeLht_ghr (v : History) : (writeLht b i v).ghr = b.ghr := rfl
@[simp] theorem writeLht_pht (v : History) : (writeLht b i v).pht = b.pht := rfl
@[simp] theorem writeLht_lht (v : History) : (writeLht b i v).lht = writeTable 0#32 b.lht i.toNat v := rfl
@[simp] theorem writeLht_lpt (v : History) : (writeLht b i v).lpt = b.lpt := rfl
@[simp] theorem writeLht_gpt (v : History) : (writeLht b i v).gpt = b.gpt := rfl
@[simp] theorem writeLht_cht (v : History) : (writeLht b i v).cht = b.cht := rfl
@[simp] theorem writeLht_pwt (v : History) : (writeLht b i v).pwt = b.pwt := rfl

/-! ### writeLpt -/

@[simp] theorem writeLpt_cfgValid (v : Counter) : (writeLpt b i v).cfgValid = b.cfgValid := rfl
@[simp] theorem writeLpt_cfgMode (v : Counter) : (writeLpt b i v).cfgMode = b.cfgMode := rfl
@[simp] theorem writeLpt_cfgG (v : Counter) : (writeLpt b i v).cfgG = b.cfgG := rfl
@[simp] theorem writeLpt_cfgL (v : Counter) : (writeLpt b i v).cfgL = b.cfgL := rfl
@[simp] theorem writeLpt_cfgP (v : Counter) : (writeLpt b i v).cfgP = b.cfgP := rfl
@[simp] theorem writeLpt_ghr (v : Counter) : (writeLpt b i v).ghr = b.ghr := rfl
@[simp] theorem writeLpt_pht (v : Counter) : (writeLpt b i v).pht = b.pht := rfl
@[simp] theorem writeLpt_lht (v : Counter) : (writeLpt b i v).lht = b.lht := rfl
@[simp] theorem writeLpt_lpt (v : Counter) : (writeLpt b i v).lpt = writeTable .WN b.lpt i.toNat v := rfl
@[simp] theorem writeLpt_gpt (v : Counter) : (writeLpt b i v).gpt = b.gpt := rfl
@[simp] theorem writeLpt_cht (v : Counter) : (writeLpt b i v).cht = b.cht := rfl
@[simp] theorem writeLpt_pwt (v : Counter) : (writeLpt b i v).pwt = b.pwt := rfl

/-! ### writeGpt -/

@[simp] theorem writeGpt_cfgValid (v : Counter) : (writeGpt b i v).cfgValid = b.cfgValid := rfl
@[simp] theorem writeGpt_cfgMode (v : Counter) : (writeGpt b i v).cfgMode = b.cfgMode := rfl
@[simp] theorem writeGpt_cfgG (v : Counter) : (writeGpt b i v).cfgG = b.cfgG := rfl
@[simp] theorem writeGpt_cfgL (v : Counter) : (writeGpt b i v).cfgL = b.cfgL := rfl
@[simp] theorem writeGpt_cfgP (v : Counter) : (writeGpt b i v).cfgP = b.cfgP := rfl
@[simp] theorem writeGpt_ghr (v : Counter) : (writeGpt b i v).ghr = b.ghr := rfl
@[simp] theorem writeGpt_pht (v : Counter) : (writeGpt b i v).pht = b.pht := rfl
@[simp] theorem writeGpt_lht (v : Counter) : (writeGpt b i v).lht = b.lht := rfl
@[simp] theorem writeGpt_lpt (v : Counter) : (writeGpt b i v).lpt = b.lpt := rfl
@[simp] theorem writeGpt_gpt (v : Counter) : (writeGpt b i v).gpt = writeTable .WN b.gpt i.toNat v := rfl
@[simp] theorem writeGpt_cht (v : Counter) : (writeGpt b i v).cht = b.cht := rfl
@[simp] theorem writeGpt_pwt (v : Counter) : (writeGpt b i v).pwt = b.pwt := rfl

/-! ### writeCht -/

@[simp] theorem writeCht_cfgValid (v : Choice) : (writeCht b i v).cfgValid = b.cfgValid := rfl
@[simp] theorem writeCht_cfgMode (v : Choice) : (writeCht b i v).cfgMode = b.cfgMode := rfl
@[simp] theorem writeCht_cfgG (v : Choice) : (writeCht b i v).cfgG = b.cfgG := rfl
@[simp] theorem writeCht_cfgL (v : Choice) : (writeCht b i v).cfgL = b.cfgL := rfl
@[simp] theorem writeCht_cfgP (v : Choice) : (writeCht b i v).cfgP = b.cfgP := rfl
@[simp] theorem writeCht_ghr (v : Choice) : (writeCht b i v).ghr = b.ghr := rfl
@[simp] theorem writeCht_pht (v : Choice) : (writeCht b i v).pht = b.pht := rfl
@[simp] theorem writeCht_lht (v : Choice) : (writeCht b i v).lht = b.lht := rfl
@[simp] theorem writeCht_lpt (v : Choice) : (writeCht b i v).lpt = b.lpt := rfl
@[simp] theorem writeCht_gpt (v : Choice) : (writeCht b i v).gpt = b.gpt := rfl
@[simp] theorem writeCht_cht (v : Choice) : (writeCht b i v).cht = writeTable .WG b.cht i.toNat v := rfl
@[simp] theorem writeCht_pwt (v : Choice) : (writeCht b i v).pwt = b.pwt := rfl

/-! ### writePwt -/

@[simp] theorem writePwt_cfgValid (v : WeightVec) : (writePwt b i v).cfgValid = b.cfgValid := rfl
@[simp] theorem writePwt_cfgMode (v : WeightVec) : (writePwt b i v).cfgMode = b.cfgMode := rfl
@[simp] theorem writePwt_cfgG (v : WeightVec) : (writePwt b i v).cfgG = b.cfgG := rfl
@[simp] theorem writePwt_cfgL (v : WeightVec) : (writePwt b i v).cfgL = b.cfgL := rfl
@[simp] theorem writePwt_cfgP (v : WeightVec) : (writePwt b i v).cfgP = b.cfgP := rfl
@[simp] theorem writePwt_ghr (v : WeightVec) : (writePwt b i v).ghr = b.ghr := rfl
@[simp] theorem writePwt_pht (v : WeightVec) : (writePwt b i v).pht = b.pht := rfl
@[simp] theorem writePwt_lht (v : WeightVec) : (writePwt b i v).lht = b.lht := rfl
@[simp] theorem writePwt_lpt (v : WeightVec) : (writePwt b i v).lpt = b.lpt := rfl
@[simp] theorem writePwt_gpt (v : WeightVec) : (writePwt b i v).gpt = b.gpt := rfl
@[simp] theorem writePwt_cht (v : WeightVec) : (writePwt b i v).cht = b.cht := rfl
@[simp] theorem writePwt_pwt (v : WeightVec) : (writePwt b i v).pwt = writeTable zeroWeights b.pwt i.toNat v := rfl

/-! ### configured -/

variable (m : Mode) (g l p : Width)

@[simp] theorem configured_cfgValid : (configured bd m g l p).cfgValid = true := rfl
@[simp] theorem configured_cfgMode : (configured bd m g l p).cfgMode = m := rfl
@[simp] theorem configured_cfgG : (configured bd m g l p).cfgG = g := rfl
@[simp] theorem configured_cfgL : (configured bd m g l p).cfgL = l := rfl
@[simp] theorem configured_cfgP : (configured bd m g l p).cfgP = p := rfl
@[simp] theorem configured_ghr : (configured bd m g l p).ghr = (if m = .perceptron then bd.percHseed &&& mask g else 0#32) := rfl
@[simp] theorem configured_pht : (configured bd m g l p).pht = [] := rfl
@[simp] theorem configured_lht : (configured bd m g l p).lht = [] := rfl
@[simp] theorem configured_lpt : (configured bd m g l p).lpt = [] := rfl
@[simp] theorem configured_gpt : (configured bd m g l p).gpt = [] := rfl
@[simp] theorem configured_cht : (configured bd m g l p).cht = [] := rfl
@[simp] theorem configured_pwt : (configured bd m g l p).pwt = [] := rfl

end Sys2Proof.Machine
end

