-- ==== Sys2Proof/Laws/Table.lean ====
section
/-! SUPPORT. The laws of the tables: a read after a write, and the canonical form, for one table and for the six. -/

namespace Sys2Proof.Machine

section OneTable
variable {α : Type} [DecidableEq α] (d : α)

omit [DecidableEq α] in
@[simp] theorem readTable_nil (i : Nat) : readTable d [] i = d := rfl

/-- A canonical table whose indices are at least lo reads as d below lo. -/
theorem readTable_below {lo : Nat} {t : Table α} (h : tableWf d lo t = true) {i : Nat} (hi : i < lo) :
    readTable d t i = d := by
  cases t with
  | nil => rfl
  | cons e t =>
    obtain ⟨k, v⟩ := e
    simp only [tableWf, Bool.and_eq_true, decide_eq_true_eq] at h
    simp [readTable, show i < k by omega]

theorem tableWf_mono {lo lo' : Nat} {t : Table α} (h : tableWf d lo t = true) (hl : lo' ≤ lo) :
    tableWf d lo' t = true := by
  cases t with
  | nil => rfl
  | cons e t =>
    obtain ⟨k, v⟩ := e
    simp only [tableWf, Bool.and_eq_true, decide_eq_true_eq] at h ⊢
    exact ⟨⟨⟨by omega, h.1.1.2⟩, h.1.2⟩, h.2⟩

/-- The read-after-write law of one canonical table. -/
theorem readTable_writeTable {lo : Nat} {t : Table α} (h : tableWf d lo t = true) (i j : Nat) (v : α) :
    readTable d (writeTable d t i v) j = if j = i then v else readTable d t j := by
  induction t generalizing lo with
  | nil =>
    by_cases hv : v = d
    · simp [writeTable, hv]
    · by_cases hij : j = i
      · simp [writeTable, hv, readTable, hij]
      · simp [writeTable, hv, readTable, hij]
  | cons e t ih =>
    obtain ⟨k, u⟩ := e
    have hwf := h
    simp only [tableWf, Bool.and_eq_true, decide_eq_true_eq] at h
    obtain ⟨⟨⟨-, -⟩, -⟩, ht⟩ := h
    rcases Nat.lt_trichotomy i k with hik | rfl | hik
    · by_cases hv : v = d
      · by_cases hij : j = i
        · subst hij; simp [writeTable, hik, hv, readTable]
        · simp [writeTable, hik, hv, hij]
      · rcases Nat.lt_trichotomy j i with hij | rfl | hij
        · simp [writeTable, hik, hv, readTable, hij, show j ≠ i by omega, show j < k by omega]
        · simp [writeTable, hik, hv, readTable]
        · simp [writeTable, hik, hv, readTable, show ¬ j < i by omega, show j ≠ i by omega]
    · by_cases hv : v = d
      · rcases Nat.lt_trichotomy j i with hij | rfl | hij
        · simp [writeTable, hv, readTable, hij, show j ≠ i by omega, readTable_below d ht (show j < i + 1 by omega)]
        · simp [writeTable, hv, readTable_below d ht (Nat.lt_succ_self _)]
        · simp [writeTable, hv, readTable, show ¬ j < i by omega, show j ≠ i by omega]
      · by_cases hij : j = i
        · subst hij; simp [writeTable, hv, readTable]
        · simp [writeTable, hv, readTable, hij]
    · simp only [writeTable, show ¬ i < k by omega, show i ≠ k by omega, if_false, readTable, ih ht]
      by_cases hjk : j < k
      · simp [hjk, show j ≠ i by omega]
      · by_cases hjk' : j = k
        · simp [hjk', show k ≠ i by omega]
        · simp [hjk, hjk']

/-- A write keeps the canonical form. -/
theorem tableWf_writeTable {lo : Nat} {t : Table α} (h : tableWf d lo t = true) {i : Nat} (hlo : lo ≤ i)
    (hi : i < 2 ^ 32) (v : α) : tableWf d lo (writeTable d t i v) = true := by
  induction t generalizing lo with
  | nil =>
    by_cases hv : v = d
    · simp [writeTable, hv, tableWf]
    · simp only [writeTable, hv, if_false, tableWf, Bool.and_eq_true, decide_eq_true_eq]
      exact ⟨⟨⟨hlo, hi⟩, hv⟩, trivial⟩
  | cons e t ih =>
    obtain ⟨k, u⟩ := e
    have hwf := h
    simp only [tableWf, Bool.and_eq_true, decide_eq_true_eq] at h
    obtain ⟨⟨⟨hk, hk2⟩, hu⟩, ht⟩ := h
    rcases Nat.lt_trichotomy i k with hik | rfl | hik
    · by_cases hv : v = d
      · simpa [writeTable, hik, hv] using hwf
      · simp only [writeTable, hik, hv, if_true, if_false, tableWf, Bool.and_eq_true, decide_eq_true_eq]
        exact ⟨⟨⟨hlo, hi⟩, hv⟩, ⟨⟨⟨hik, hk2⟩, hu⟩, ht⟩⟩
    · by_cases hv : v = d
      · simpa [writeTable, hv] using tableWf_mono d ht (show lo ≤ i + 1 by omega)
      · simp only [writeTable, hv, Nat.lt_irrefl, if_true, if_false, tableWf, Bool.and_eq_true, decide_eq_true_eq]
        exact ⟨⟨⟨hk, hk2⟩, hv⟩, ht⟩
    · simp only [writeTable, show ¬ i < k by omega, show i ≠ k by omega, if_false, tableWf, Bool.and_eq_true,
        decide_eq_true_eq]
      exact ⟨⟨⟨hk, hk2⟩, hu⟩, ih ht (by omega)⟩

/-- A table made from any entries is canonical. -/
theorem tableWf_tableOf (entries : List (Word × α)) : tableWf d 0 (tableOf d entries) = true := by
  have key : ∀ t : Table α, tableWf d 0 t = true →
      tableWf d 0 (entries.foldl (fun t e => writeTable d t e.1.toNat e.2) t) = true := by
    induction entries with
    | nil => exact fun t ht => ht
    | cons e es ih => exact fun t ht => ih _ (tableWf_writeTable d ht (Nat.zero_le _) e.1.isLt e.2)
  exact key [] rfl

/-- An entry of a table made from entries is one of them, or reads as d. -/
theorem readTable_tableOf (entries : List (Word × α)) (j : Nat) :
    readTable d (tableOf d entries) j = d ∨
      ∃ e ∈ entries, e.1.toNat = j ∧ readTable d (tableOf d entries) j = e.2 := by
  induction entries using List.reverseRecOn with
  | nil => exact .inl rfl
  | append_singleton es e ih =>
    have hstep : tableOf d (es ++ [e]) = writeTable d (tableOf d es) e.1.toNat e.2 := by
      simp only [tableOf, List.foldl_append, List.foldl_cons, List.foldl_nil]
    rw [hstep, readTable_writeTable d (tableWf_tableOf d es)]
    by_cases hj : j = e.1.toNat
    · exact .inr ⟨e, by simp, hj.symm, if_pos hj⟩
    · rw [if_neg hj]
      exact ih.imp_right fun ⟨e', he', h⟩ => ⟨e', List.mem_append_left _ he', h⟩

end OneTable

/-- The six canonical forms that `Memory.wf` says. -/
theorem memory_wf_iff (b : Block) : Memory.wf b = true ↔
    tableWf .WN 0 b.pht = true ∧ tableWf 0#32 0 b.lht = true ∧ tableWf .WN 0 b.lpt = true ∧
      tableWf .WN 0 b.gpt = true ∧ tableWf .WG 0 b.cht = true ∧ tableWf zeroWeights 0 b.pwt = true := by
  simp only [Memory.wf, Bool.and_eq_true, and_assoc]

/-! ### Reads after writes, table by table. A read depends on its own table only. -/

theorem readPht_congr {b c : Block} (h : b.pht = c.pht) (i : Word) : readPht b i = readPht c i := by
  simp only [readPht, h]

theorem readPht_writePht {b : Block} (h : Memory.wf b = true) (i j : Word) (v : Counter) :
    readPht (writePht b i v) j = if j = i then v else readPht b j := by
  have hw := (memory_wf_iff b).1 h
  simp only [readPht, writePht_pht, BitVec.toNat_inj, readTable_writeTable _ hw.1]

theorem readLht_congr {b c : Block} (h : b.lht = c.lht) (i : Word) : readLht b i = readLht c i := by
  simp only [readLht, h]

theorem readLht_writeLht {b : Block} (h : Memory.wf b = true) (i j : Word) (v : History) :
    readLht (writeLht b i v) j = if j = i then v else readLht b j := by
  have hw := (memory_wf_iff b).1 h
  simp only [readLht, writeLht_lht, BitVec.toNat_inj, readTable_writeTable _ hw.2.1]

theorem readLpt_congr {b c : Block} (h : b.lpt = c.lpt) (i : Word) : readLpt b i = readLpt c i := by
  simp only [readLpt, h]

theorem readLpt_writeLpt {b : Block} (h : Memory.wf b = true) (i j : Word) (v : Counter) :
    readLpt (writeLpt b i v) j = if j = i then v else readLpt b j := by
  have hw := (memory_wf_iff b).1 h
  simp only [readLpt, writeLpt_lpt, BitVec.toNat_inj, readTable_writeTable _ hw.2.2.1]

theorem readGpt_congr {b c : Block} (h : b.gpt = c.gpt) (i : Word) : readGpt b i = readGpt c i := by
  simp only [readGpt, h]

theorem readGpt_writeGpt {b : Block} (h : Memory.wf b = true) (i j : Word) (v : Counter) :
    readGpt (writeGpt b i v) j = if j = i then v else readGpt b j := by
  have hw := (memory_wf_iff b).1 h
  simp only [readGpt, writeGpt_gpt, BitVec.toNat_inj, readTable_writeTable _ hw.2.2.2.1]

theorem readCht_congr {b c : Block} (h : b.cht = c.cht) (i : Word) : readCht b i = readCht c i := by
  simp only [readCht, h]

theorem readCht_writeCht {b : Block} (h : Memory.wf b = true) (i j : Word) (v : Choice) :
    readCht (writeCht b i v) j = if j = i then v else readCht b j := by
  have hw := (memory_wf_iff b).1 h
  simp only [readCht, writeCht_cht, BitVec.toNat_inj, readTable_writeTable _ hw.2.2.2.2.1]

theorem readPwt_congr {b c : Block} (h : b.pwt = c.pwt) (i : Word) : readPwt b i = readPwt c i := by
  simp only [readPwt, h]

theorem readPwt_writePwt {b : Block} (h : Memory.wf b = true) (i j : Word) (v : WeightVec) :
    readPwt (writePwt b i v) j = if j = i then v else readPwt b j := by
  have hw := (memory_wf_iff b).1 h
  simp only [readPwt, writePwt_pwt, BitVec.toNat_inj, readTable_writeTable _ hw.2.2.2.2.2]

/-! ### Every write keeps the canonical form of the memories. -/

theorem memory_wf_writePht {b : Block} (h : Memory.wf b = true) (i : Word) (v : Counter) :
    Memory.wf (writePht b i v) = true := by
  rw [memory_wf_iff] at h ⊢
  refine ⟨tableWf_writeTable _ h.1 (Nat.zero_le _) i.isLt v, h.2.1, h.2.2.1, h.2.2.2.1, h.2.2.2.2.1, h.2.2.2.2.2⟩

theorem memory_wf_writeLht {b : Block} (h : Memory.wf b = true) (i : Word) (v : History) :
    Memory.wf (writeLht b i v) = true := by
  rw [memory_wf_iff] at h ⊢
  refine ⟨h.1, tableWf_writeTable _ h.2.1 (Nat.zero_le _) i.isLt v, h.2.2.1, h.2.2.2.1, h.2.2.2.2.1, h.2.2.2.2.2⟩

theorem memory_wf_writeLpt {b : Block} (h : Memory.wf b = true) (i : Word) (v : Counter) :
    Memory.wf (writeLpt b i v) = true := by
  rw [memory_wf_iff] at h ⊢
  refine ⟨h.1, h.2.1, tableWf_writeTable _ h.2.2.1 (Nat.zero_le _) i.isLt v, h.2.2.2.1, h.2.2.2.2.1, h.2.2.2.2.2⟩

theorem memory_wf_writeGpt {b : Block} (h : Memory.wf b = true) (i : Word) (v : Counter) :
    Memory.wf (writeGpt b i v) = true := by
  rw [memory_wf_iff] at h ⊢
  refine ⟨h.1, h.2.1, h.2.2.1, tableWf_writeTable _ h.2.2.2.1 (Nat.zero_le _) i.isLt v, h.2.2.2.2.1, h.2.2.2.2.2⟩

theorem memory_wf_writeCht {b : Block} (h : Memory.wf b = true) (i : Word) (v : Choice) :
    Memory.wf (writeCht b i v) = true := by
  rw [memory_wf_iff] at h ⊢
  refine ⟨h.1, h.2.1, h.2.2.1, h.2.2.2.1, tableWf_writeTable _ h.2.2.2.2.1 (Nat.zero_le _) i.isLt v, h.2.2.2.2.2⟩

theorem memory_wf_writePwt {b : Block} (h : Memory.wf b = true) (i : Word) (v : WeightVec) :
    Memory.wf (writePwt b i v) = true := by
  rw [memory_wf_iff] at h ⊢
  refine ⟨h.1, h.2.1, h.2.2.1, h.2.2.2.1, h.2.2.2.2.1, tableWf_writeTable _ h.2.2.2.2.2 (Nat.zero_le _) i.isLt v⟩

theorem memory_wf_shiftGhr {b : Block} (h : Memory.wf b = true) (o : Outcome) : Memory.wf (shiftGhr b o) = true := h

theorem memory_wf_resetRegisters {b : Block} (h : Memory.wf b = true) : Memory.wf (resetRegisters b) = true := h

theorem memory_wf_freeTables (bd : Build) (n : Nat) (b : Block) : Memory.wf (freeTables bd n b) = true :=
  (memory_wf_iff _).2 ⟨tableWf_tableOf _ _, tableWf_tableOf _ _, tableWf_tableOf _ _, tableWf_tableOf _ _,
    tableWf_tableOf _ _, tableWf_tableOf _ _⟩

theorem memory_wf_configured (bd : Build) (m : Mode) (g l p : Width) : Memory.wf (configured bd m g l p) = true := rfl

theorem memory_wf_reset : Memory.wf State.reset.block = true := rfl

end Sys2Proof.Machine
end

