-- ==== Sys2Proof/Laws/Step.lean ====
section
/-! SUPPORT. What a command and a step can do, said once. -/

namespace Sys2Proof.Machine

/-- A response that answers: the ports, the observation and the record after `respond`. -/
theorem answers_respond (s : State) (b : Block) (st : Status) (o : Outcome) :
    Answers s (respond st o { s with block := b }) st o := ⟨rfl, rfl, rfl, rfl, rfl, rfl⟩

/-- INIT, whatever its fields: either it configures the block or it unconfigures it. -/
theorem initCommand_cases (bd : Build) (mode : BitVec 3) (g l p : Width) (s : State) :
    (∃ m, modeOfBits mode = some m ∧ widthsLegal bd g l p = true ∧
      initCommand bd mode g l p s = respond .ok .notTaken { s with block := configured bd m g l p }) ∨
    ((modeOfBits mode = none ∨ widthsLegal bd g l p = false) ∧ initCommand bd mode g l p s = configError s) := by
  unfold initCommand
  cases hm : modeOfBits mode with
  | none => exact .inr ⟨.inl rfl, rfl⟩
  | some m =>
    cases hw : widthsLegal bd g l p with
    | true => exact .inl ⟨m, rfl, rfl, rfl⟩
    | false => exact .inr ⟨.inr rfl, rfl⟩

theorem initCommand_legal {bd : Build} {g l p : Width} (m : Mode) (h : widthsLegal bd g l p = true) (s : State) :
    initCommand bd (modeBits m) g l p s = respond .ok .notTaken { s with block := configured bd m g l p } := by
  simp [initCommand, h]

theorem widthsLegal_build (g l p : Width) :
    widthsLegal Config.build g l p = true ↔ g.toNat ≤ 32 ∧ l.toNat ≤ 32 ∧ p.toNat ≤ 32 := by
  simp only [widthsLegal, Bool.and_eq_true, decide_eq_true_eq, and_assoc]
  exact Iff.rfl

theorem exec_initOf (m : Mode) (g l p : Width) (s : State) :
    exec (initOf m g l p) s = .next (initCommand Config.build (modeBits m) g l p s) := by cases m <;> rfl

/-- What the block is after a command. -/
inductive BlockAfter (bd : Build) (i : Instr) (b : Block) : Block → Prop
  /-- Nothing of it changed: PREDICT, the reserved command, TRAIN while unconfigured. -/
  | same (h : ∀ pc o, i = .train pc o → b.cfgValid = false) (hi : ∀ m g l p, i ≠ initOf m g l p)
      (hu : ∀ mode g l p, i ≠ .initUnknownMode mode g l p) : BlockAfter bd i b b
  /-- A failed INIT. -/
  | failed (h : (∃ m g l p, i = initOf m g l p) ∨ ∃ mode g l p, i = .initUnknownMode mode g l p) :
      BlockAfter bd i b { b with cfgValid := false }
  /-- A successful INIT. -/
  | init (mode : BitVec 3) (m : Mode) (g l p : Width)
      (h : i = initOf m g l p ∨ i = .initUnknownMode mode g l p)
      (hw : widthsLegal bd g l p = true) : BlockAfter bd i b (configured bd m g l p)
  /-- A TRAIN of a configured block. -/
  | train (pc : Word) (o : Outcome) (h : i = .train pc o) (hv : b.cfgValid = true) :
      BlockAfter bd i b (trainBlock bd b pc o)

theorem perform_initOf (bd : Build) (m : Mode) (g l p : Width) (s : State) :
    perform bd (initOf m g l p) s = initCommand bd (modeBits m) g l p s := by cases m <;> rfl

/-- All a command of a build can do: one response, and one of the four changes of the block. -/
theorem perform_cases (bd : Build) (i : Instr) (s : State) :
    ∃ st pred b, perform bd i s = respond st pred { s with block := b } ∧ BlockAfter bd i s.block b := by
  have hinit : ∀ (m : Mode) (g l p : Width), i = initOf m g l p →
      ∃ st pred b, perform bd i s = respond st pred { s with block := b } ∧ BlockAfter bd i s.block b := by
    intro m g l p hi
    rw [hi, perform_initOf]
    rcases initCommand_cases bd (modeBits m) g l p s with ⟨m', hm, hw, he⟩ | ⟨-, he⟩
    · rw [modeOfBits_modeBits] at hm
      cases hm
      exact ⟨_, _, _, he, .init (modeBits m) m g l p (.inl rfl) hw⟩
    · exact ⟨_, _, _, he, .failed (.inl ⟨m, g, l, p, rfl⟩)⟩
  cases i with
  | initStatic g l p => exact hinit .static g l p rfl
  | initGshare g l p => exact hinit .gshare g l p rfl
  | initTournament g l p => exact hinit .tournament g l p rfl
  | initPerceptron g l p => exact hinit .perceptron g l p rfl
  | initUnknownMode mode g l p =>
    rcases initCommand_cases bd mode g l p s with ⟨m, hm, hw, he⟩ | ⟨-, he⟩
    · exact ⟨_, _, _, he, .init mode m g l p (.inr rfl) hw⟩
    · exact ⟨_, _, _, he, .failed (.inr ⟨mode, g, l, p, rfl⟩)⟩
  | predict pc =>
    have hsame : BlockAfter bd (.predict pc) s.block s.block :=
      .same nofun (by intro m; cases m <;> exact nofun) nofun
    cases hv : s.block.cfgValid with
    | true => exact ⟨.ok, predictOutcome s.block pc, s.block, by simp [perform, predictCommand, hv], hsame⟩
    | false => exact ⟨.notInit, .notTaken, s.block, by simp [perform, predictCommand, hv, notInitError_eq], hsame⟩
  | train pc o =>
    cases hv : s.block.cfgValid with
    | true => exact ⟨.ok, .notTaken, _, by simp [perform, trainCommand, hv], .train pc o rfl hv⟩
    | false => exact ⟨.notInit, .notTaken, s.block, by simp [perform, trainCommand, hv, notInitError_eq],
        .same (fun _ _ _ => hv) (by intro m; cases m <;> exact nofun) nofun⟩
  | reservedOp rest => exact ⟨_, _, _, rfl, .same nofun (by intro m; cases m <;> exact nofun) nofun⟩

/-- exec performs the commands of this hardware's build. -/
theorem exec_eq_perform (i : Instr) (s : State) : exec i s = .next (perform Config.build i s) := by cases i <;> rfl

/-- All a command of this hardware can do. -/
theorem exec_cases (i : Instr) (s : State) : ∃ st pred b,
    exec i s = .next (respond st pred { s with block := b }) ∧ BlockAfter Config.build i s.block b := by
  obtain ⟨st, pred, b, he, hb⟩ := perform_cases Config.build i s
  exact ⟨st, pred, b, by rw [exec_eq_perform, he], hb⟩

/-! ### PREDICT and TRAIN by mode. -/

theorem exec_predict_configured {s : State} (h : s.block.cfgValid = true) (pc : Word) :
    exec (.predict pc) s = .next (respond .ok (predictOutcome s.block pc) s) := by
  simp [exec, execPredict, predictCommand, h]

theorem exec_train_configured {s : State} (h : s.block.cfgValid = true) (pc : Word) (o : Outcome) :
    exec (.train pc o) s =
      .next (respond .ok .notTaken { s with block := trainBlock Config.build s.block pc o }) := by
  simp [exec, execTrain, trainCommand, h]

theorem exec_predict_unconfigured {s : State} (h : s.block.cfgValid = false) (pc : Word) :
    exec (.predict pc) s = .next (notInitError s) := by simp [exec, execPredict, predictCommand, h]

theorem exec_train_unconfigured {s : State} (h : s.block.cfgValid = false) (pc : Word) (o : Outcome) :
    exec (.train pc o) s = .next (notInitError s) := by simp [exec, execTrain, trainCommand, h]

section ByMode
variable {b : Block} (bd : Build) (pc : Word) (o : Outcome)

theorem predictOutcome_static (h : b.cfgMode = .static) : predictOutcome b pc = .taken := by
  simp [predictOutcome, h, staticPredict]
theorem predictOutcome_gshare (h : b.cfgMode = .gshare) : predictOutcome b pc = gsharePredict b pc := by
  simp [predictOutcome, h]
theorem predictOutcome_tournament (h : b.cfgMode = .tournament) : predictOutcome b pc = tournamentPredict b pc := by
  simp [predictOutcome, h]
theorem predictOutcome_perceptron (h : b.cfgMode = .perceptron) : predictOutcome b pc = percPredict b pc := by
  simp [predictOutcome, h]
theorem trainBlock_static (h : b.cfgMode = .static) : trainBlock bd b pc o = b := by
  simp [trainBlock, h, staticTrain]
theorem trainBlock_gshare (h : b.cfgMode = .gshare) : trainBlock bd b pc o = gshareTrain b pc o := by
  simp [trainBlock, h]
theorem trainBlock_tournament (h : b.cfgMode = .tournament) : trainBlock bd b pc o = tournamentTrain b pc o := by
  simp [trainBlock, h]
theorem trainBlock_perceptron (h : b.cfgMode = .perceptron) : trainBlock bd b pc o = percTrain bd b pc o := by
  simp [trainBlock, h]

end ByMode

/-- What one step is, by what the host does. -/
theorem step_command {s : State} {w : CmdWord} {rest : List HostInput} (h : s.host = .command w :: rest) :
    step s = runWord exec w (acceptCommand rest s) := by simp [step, stepWith, h]

theorem step_rst {s : State} {rest : List HostInput} (h : s.host = .rst :: rest) :
    step s = .next (hardwareReset rest s) := by simp [step, stepWith, h]

theorem step_commandThenRst {s : State} {w : CmdWord} {rest : List HostInput}
    (h : s.host = .commandThenRst w :: rest) : step s = .next (abandonCommand Config.build rest s) := by simp [step, stepWith, h]

theorem step_idle {s : State} (h : s.host = []) : step s = .next (idle s) := by simp [step, stepWith, h]

section AnyBuild
variable {bd : Build} {s : State} {rest : List HostInput}

/-- What one step of a build is, by what the host does. -/
theorem stepOn_command {w : CmdWord} (h : s.host = .command w :: rest) :
    stepOn bd s = runWord (fun i t => .next (perform bd i t)) w (acceptCommand rest s) := by simp [stepOn, stepWith, h]

theorem stepOn_rst (h : s.host = .rst :: rest) : stepOn bd s = .next (hardwareReset rest s) := by
  simp [stepOn, stepWith, h]

theorem stepOn_commandThenRst {w : CmdWord} (h : s.host = .commandThenRst w :: rest) :
    stepOn bd s = .next (abandonCommand bd rest s) := by simp [stepOn, stepWith, h]

theorem stepOn_idle (h : s.host = []) : stepOn bd s = .next (idle s) := by simp [stepOn, stepWith, h]

end AnyBuild

/-- This hardware's step is its build's. -/
theorem step_eq_stepOn (s : State) : step s = stepOn Config.build s := by
  have hrun : exec = fun i t => .next (perform Config.build i t) := by funext i t; exact exec_eq_perform i t
  simp only [step, stepOn, hrun]

variable {run : Instr → State → Host.Outcome State Fault Refusal}

theorem runWord_instr {w : CmdWord} {i : Instr} (h : decode w = .instr i) (s : State) : runWord run w s = run i s := by
  simp [runWord, h]

theorem runWord_illegal {w : CmdWord} {r : IllegalReason} (h : decode w = .illegal r) (s : State) :
    runWord run w s = .next (illegalCommand s) := by simp [runWord, h]

end Sys2Proof.Machine
end

