-- ==== Sys2Proof/Tests/Slice0.lean ====
section
/-! SUPPORT. Tests whose expected results stand in the spec (95_test_vectors.md and the rules named), and for every
statement with hypotheses a witness that meets them, one for each clause. -/

namespace Sys2Proof.Tests

open Sys2Proof.Machine

/-! ### Helpers -/

/-- The INIT state of a mode (R121). -/
def blk (m : Mode) (g l p : Width) : Block := configured Config.build m g l p

/-- The machine whose block is b and whose host presents nothing. -/
def withBlock (b : Block) : State := { State.reset with block := b }

/-- The machine whose block is b and whose host presents one word. -/
def presents (b : Block) (w : CmdWord) : State := { withBlock b with host := [.command w] }

/-- What one step leaves: the block and the response. -/
def seen (s : State) : Option (Block × Option RspWord) :=
  match step s with
  | .next t => some (t.block, t.rsp)
  | .fault _ => none
  | .refused _ => none

/-- A weight vector from its first weights, the others 0. -/
def weights (ws : List Int) : WeightVec := Vector.ofFn fun i => ws.getD i.val 0

/-- This hardware with the THETA a vector states. -/
def withTheta (theta : Int) : Build := { Config.build with theta := theta }

/-- The build of V-P14: WBITS = 3 and THETA = 100. -/
def threeBits : Build := { Config.build with theta := 100, wbits := 3, wbits_ge := by decide, accBits_ge := by decide }

/-- A build with smaller maxima (R7, D8). -/
def smallBuild : Build where
  gMax := 8
  lMax := 4
  pMax := 2
  theta := 0
  wbits := 2
  percHseed := 0xA5#32
  accBits := 7
  gMax_le := by decide
  lMax_le := by decide
  pMax_le := by decide
  wbits_ge := by decide
  percHseed_lt := by decide
  accBits_ge := by decide

/-- What one step of a build leaves: the block and the response. -/
def seenOn (bd : Build) (s : State) : Option (Block × Option RspWord) :=
  match stepOn bd s with
  | .next t => some (t.block, t.rsp)
  | .fault _ => none
  | .refused _ => none

/-- A PERCEPTRON block of G = g and P = 0 with the given first vector and GHR. -/
def perc (g : Width) (ghr : History) (w : WeightVec) : Block :=
  writePwt { blk .perceptron g 0#6 0#6 with ghr := ghr } 0#32 w

/-! ### WellFormed refuses what stands for no word of its row (R122) -/

theorem test_wellFormed_refuses_known_mode : (Instr.initUnknownMode 3#3 0#6 0#6 0#6).wellFormed = false := by decide

theorem test_wellFormed_refuses_static_mode : (Instr.initUnknownMode 0#3 2#6 2#6 2#6).wellFormed = false := by decide

theorem test_wellFormed_accepts_illegal_widths : (Instr.initStatic 63#6 63#6 63#6).wellFormed = true := by decide

/-! ### Decoding: words written out bit by bit from R82, R83 and R86 (V-E1, V-I1) -/

theorem test_decode_initStatic :
    decode 0b00000000000000000000000000000000000000000_000000_101000_000000_000_00#64 =
      .instr (.initStatic 0#6 40#6 0#6) := by decide

theorem test_decode_initGshare :
    decode 0b00000000000000000000000000000000000000000_000000_000000_000010_001_00#64 =
      .instr (.initGshare 2#6 0#6 0#6) := by decide

theorem test_decode_initTournament :
    decode 0b00000000000000000000000000000000000000000_000001_000001_000001_010_00#64 =
      .instr (.initTournament 1#6 1#6 1#6) := by decide

theorem test_decode_initPerceptron :
    decode 0b00000000000000000000000000000000000000000_000001_000000_000011_011_00#64 =
      .instr (.initPerceptron 3#6 0#6 1#6) := by decide

theorem test_decode_initUnknownMode :
    decode 0b00000000000000000000000000000000000000000_000010_000010_000010_101_00#64 =
      .instr (.initUnknownMode 5#3 2#6 2#6 2#6) := by decide

theorem test_decode_predict :
    decode 0b00000000000000000000000000000101_000000000000000000000000000000_01#64 = .instr (.predict 5#32) := by
  decide

theorem test_decode_train_taken :
    decode 0b00000000000000000000000000000101_00000000000000000000000000000_1_10#64 =
      .instr (.train 5#32 .taken) := by decide

theorem test_decode_train_notTaken :
    decode 0b00000000000000000000000000000101_00000000000000000000000000000_0_10#64 =
      .instr (.train 5#32 .notTaken) := by decide

theorem test_decode_reservedOp :
    decode 0x0000000000000003#64 = .instr (.reservedOp 0#62) ∧
    decode 0x0000000000000007#64 = .instr (.reservedOp 1#62) ∧
    decode 0xFFFFFFFFFFFFFFFF#64 = .instr (.reservedOp 0x3FFFFFFFFFFFFFFF#62) := by decide

/-- The words of V-E2 with a 1 in an RSVD field. -/
theorem test_decode_rejects_rsvd :
    decode 0x8000000000000000#64 = .illegal .initReserved ∧ decode 0x0000000000800044#64 = .illegal .initReserved ∧
    decode 0x0000000000800010#64 = .illegal .initReserved ∧ decode 0x0000001000000005#64 = .illegal .predictReserved ∧
    decode 0x0000000580000001#64 = .illegal .predictReserved ∧
    decode 0x000000050000000A#64 = .illegal .trainReserved := by decide

/-- The first and the last word of the table's rows, by the table's bit numbers. -/
theorem test_decodeTableWord :
    decodeTableWord 64 0x410408 = some (.initTournament 32#6 32#6 32#6) ∧
    decodeTableWord 64 0xFFFFFFFF00000001 = some (.predict 0xFFFFFFFF#32) ∧
    decodeTableWord 8 0x103 = some (.reservedOp 0#62) ∧ decodeTableWord 64 0x8000000000000000 = none := by decide

/-! ### The assembler (R91 to R93) -/

theorem test_assemble_init :
    assembleText "init tournament, g=1, l=1, p=1 ; P2" = some [0x0000000000020828#64] ∧
    assembleText "init perceptron, g=3, p=1" = some [0x000000000002006C#64] ∧
    assembleText "init static" = some [0x0000000000000000#64] := by decide

theorem test_assemble_pc :
    assembleText "predict 0xFFFFFFFF" = some [0xFFFFFFFF00000001#64] ∧
    assembleText "train 5, n" = some [0x0000000500000002#64] ∧
    assembleText "branch 1, n" = some [0x0000000100000001#64, 0x0000000100000002#64] ∧
    assembleText ".word64 0x1C" = some [0x000000000000001C#64] ∧ assembleText "; only a comment" = some [] := by decide

theorem test_assemble_refuses :
    assembleText "predict 4294967296" = none ∧ assembleText "init gshare, g=64" = none ∧
    assembleText "init bimodal" = none ∧ assembleText "PREDICT 5" = none ∧ assembleText "train 5" = none := by decide

/-! ### The shared state machines (V-M, V-S; V-C and V-H are the tables themselves) -/

theorem test_masks :
    mask 0#6 = 0x0#32 ∧ mask 1#6 = 0x1#32 ∧ mask 2#6 = 0x3#32 ∧ mask 31#6 = 0x7FFFFFFF#32 ∧
    mask 32#6 = 0xFFFFFFFF#32 := by decide

theorem test_hshift :
    hshift 0#32 .taken 0#6 = 0#32 ∧ hshift 1#32 .notTaken 1#6 = 0#32 ∧ hshift 0b101#32 .taken 3#6 = 0b011#32 ∧
    hshift 0b1010#32 .taken 4#6 = 0b0101#32 ∧ hshift 0xFFFFFFFF#32 .notTaken 32#6 = 0xFFFFFFFE#32 ∧
    hshift 0x80000000#32 .taken 32#6 = 0x00000001#32 := by decide

theorem test_counters :
    (ctrNext .WN .taken = .WT ∧ ctrNext .WT .notTaken = .WN ∧ ctrNext .SN .notTaken = .SN ∧ ctrNext .ST .taken = .ST) ∧
    (choiceNext .WL true = .WG ∧ choiceNext .WG false = .WL ∧ choiceNext .SL false = .SL ∧ choiceNext .SG true = .SG) := by
  decide

/-- V-P14 with WBITS = 3, run as a step of that build: 2 to 3, 3 stays, and -4 stays. -/
theorem test_weights_of_three_bits :
    seenOn threeBits (presents (perc 1#6 0#32 (weights [2])) 0x6#64) = some (perc 1#6 1#32 (weights [3]), some 0b000#3) ∧
    seenOn threeBits (presents (perc 1#6 1#32 (weights [3])) 0x6#64) = some (perc 1#6 1#32 (weights [3]), some 0b000#3) ∧
    seenOn threeBits (presents (perc 1#6 0#32 (weights [-4])) 0x2#64) = some (perc 1#6 0#32 (weights [-4]), some 0b000#3) := by
  decide

/-- R7: a build with smaller maxima refuses the larger widths, and seeds GHR with its PERC_HSEED masked to g bits. -/
theorem test_small_build :
    (seenOn smallBuild (presents Block.reset 0x0000000000000124#64)).map (fun x => (x.1.cfgValid, x.2)) =
      some (false, some 0b010#3) ∧
    (seenOn smallBuild (presents Block.reset 0x000000000000008C#64)).map (fun x => (x.1.cfgValid, x.1.ghr, x.2)) =
      some (true, 0x5#32, some 0b000#3) := by decide

/-- The Gshare index with G = 32 (V-G1). -/
theorem test_gshareIndex :
    gshareIndex { blk .gshare 32#6 0#6 0#6 with ghr := 0x80000001#32 } 0xDEADBEEF#32 = 0x5EADBEEE#32 := by decide

/-! ### One step of each command -/

/-- V-I1. -/
theorem test_init_static :
    seen (presents Block.reset 0x0000000000000000#64) = some (blk .static 0#6 0#6 0#6, some 0b000#3) ∧
    seen (presents Block.reset 0x0000000000014000#64) = some (Block.reset, some 0b010#3) := by decide

/-- V-I1 and V-I2: a failed INIT unconfigures the block and leaves the rest (R122). -/
theorem test_init_gshare :
    (seen (presents Block.reset 0x0000000000410404#64)).map (·.1.cfgValid) = some true ∧
    seen (presents (blk .static 0#6 0#6 0#6) 0x0000000000000504#64) =
      some ({ blk .static 0#6 0#6 0#6 with cfgValid := false }, some 0b010#3) := by decide

/-- V-I1. -/
theorem test_init_tournament :
    seen (presents Block.reset 0x0000000000410408#64) = some (blk .tournament 32#6 32#6 32#6, some 0b000#3) ∧
    (seen (presents Block.reset 0x0000000000010808#64)).map (·.2) = some (some 0b010#3) := by decide

/-- V-I1; GHR takes PERC_HSEED masked, which is 0 (R121). -/
theorem test_init_perceptron :
    (seen (presents (perc 3#6 0b111#32 (weights [1, 2, 3])) 0x000000000002006C#64)).map (fun x => (x.1.ghr, x.1.pwt, x.2)) =
      some (0#32, [], some 0b000#3) ∧
    (seen (presents Block.reset 0x000000000042000C#64)).map (·.2) = some (some 0b010#3) := by decide

/-- V-I1: MODE = 7 and MODE = 5. -/
theorem test_init_unknown_mode :
    seen (presents Block.reset 0x000000000000001C#64) = some (Block.reset, some 0b010#3) ∧
    seen (presents Block.reset 0x0000000000041054#64) = some (Block.reset, some 0b010#3) := by decide

/-- V-E2, and the sentence after its table: nothing of the block changes. -/
theorem test_illegal :
    seen (presents { blk .gshare 2#6 0#6 0#6 with ghr := 1#32 } 0x0000000000000003#64) =
      some ({ blk .gshare 2#6 0#6 0#6 with ghr := 1#32 }, some 0b110#3) ∧
    seen (presents (blk .static 0#6 0#6 0#6) 0x0000000000800044#64) = some (blk .static 0#6 0#6 0#6, some 0b110#3) := by
  decide

/-- V-I4. -/
theorem test_not_init :
    seen (presents Block.reset 0x0000001000000001#64) = some (Block.reset, some 0b100#3) ∧
    seen (presents Block.reset 0x0000001000000006#64) = some (Block.reset, some 0b100#3) := by decide

/-- V-ST1 and V-ST2. -/
theorem test_static :
    seen (presents (blk .static 0#6 0#6 0#6) 0xFFFFFFFF00000001#64) = some (blk .static 0#6 0#6 0#6, some 0b001#3) ∧
    seen (presents (blk .static 0#6 0#6 0#6) 0x0000001000000002#64) = some (blk .static 0#6 0#6 0#6, some 0b000#3) := by
  decide

/-- P1, the last two commands: PHT[2] moves, GHR stays 0b11, and PREDICT 5 reads PHT[3 ^ 1 = 2]. -/
theorem test_gshare :
    seen (presents { blk .gshare 2#6 0#6 0#6 with ghr := 0b11#32, pht := [(0, .WT), (1, .WT)] } 0x0000000500000006#64) =
      some ({ blk .gshare 2#6 0#6 0#6 with ghr := 0b11#32, pht := [(0, .WT), (1, .WT), (2, .WT)] }, some 0b000#3) ∧
    (seen (presents { blk .gshare 2#6 0#6 0#6 with ghr := 0b11#32, pht := [(0, .WT), (1, .WT), (2, .WT)] }
      0x0000000500000001#64)).map (·.2) = some (some 0b001#3) := by decide

/-- V-G2 and V-G4: the index is formed before the shift. -/
theorem test_gshare_train_index :
    (seen (presents { blk .gshare 32#6 0#6 0#6 with ghr := 0x80000001#32 } 0xDEADBEEF00000006#64)).map
      (fun x => (x.1.pht, x.1.ghr)) = some ([(0x5EADBEEE, .WT)], 3#32) ∧
    (seen (presents { blk .gshare 2#6 0#6 0#6 with ghr := 1#32 } 0x0000000500000006#64)).map
      (fun x => (x.1.pht, x.1.ghr)) = some ([(0, .WT)], 0b11#32) := by decide

/-- The block of V-T2. -/
def vt2 : Block :=
  { blk .tournament 1#6 1#6 1#6 with cht := [(0, .WL)], lpt := [(0, .WT)] }

/-- V-T2: the choice favors local, and the votes disagree. GPT[0] goes to SN; LPT[0] back to WN and CHT[0] back to WG, which
their INIT values are, so neither is listed any more. -/
theorem test_tournament_local :
    (seen (presents vt2 0x0000000000000001#64)).map (·.2) = some (some 0b001#3) ∧
    seen (presents vt2 0x0000000000000002#64) =
      some ({ blk .tournament 1#6 1#6 1#6 with gpt := [(0, .SN)] }, some 0b000#3) := by decide

/-- P2 step 8: PREDICT follows the global vote, and TRAIN moves the choice toward local. -/
theorem test_tournament_global :
    (seen (presents { blk .tournament 1#6 1#6 1#6 with
      ghr := 1#32, lht := [(0, 1#32)], lpt := [(0, .SN), (1, .ST)], gpt := [(0, .ST), (1, .SN)],
      cht := [(0, .SG), (1, .SG)] } 0x0000000000000001#64)).map (·.2) = some (some 0b000#3) ∧
    seen (presents { blk .tournament 1#6 1#6 1#6 with
      ghr := 1#32, lht := [(0, 1#32)], lpt := [(0, .SN), (1, .ST)], gpt := [(0, .ST), (1, .SN)],
      cht := [(0, .SG), (1, .SG)] } 0x0000000000000006#64) =
      some ({ blk .tournament 1#6 1#6 1#6 with
        ghr := 1#32, lht := [(0, 1#32)], lpt := [(0, .SN), (1, .ST)], gpt := [(0, .ST)], cht := [(0, .SG)] },
        some 0b000#3) := by decide

/-- V-P1 and V-P2: the sign of the sum. -/
theorem test_perceptron_predict :
    (seen (presents (perc 3#6 0b01#32 (weights [127, -128, 5])) 0x0000000000000001#64)).map (·.2) = some (some 0b000#3) ∧
    (seen (presents (perc 3#6 0b01#32 (weights [-128, 127, -128])) 0x0000000000000001#64)).map (·.2) =
      some (some 0b001#3) := by decide

/-- V-P1 and V-P2, which mispredict and so train for every THETA. -/
theorem test_perceptron_train :
    percTrain (withTheta 2) (perc 3#6 0b01#32 (weights [127, -128, 5])) 0#32 .taken = perc 3#6 0b011#32 (weights [127, -127, 4]) ∧
    percTrain (withTheta 2) (perc 3#6 0b01#32 (weights [-128, 127, -128])) 0#32 .notTaken =
      perc 3#6 0b010#32 (weights [-128, 126, -127]) := by decide

/-- V-P3, V-P5, V-P6 and V-P12: the confidence test. -/
theorem test_perceptron_confidence :
    percTrain (withTheta 2) (perc 3#6 0b11#32 (weights [127, 127, 127])) 0#32 .taken = perc 3#6 0b111#32 (weights [127, 127, 127]) ∧
    percTrain (withTheta 10) (perc 3#6 0#32 (weights [5])) 0#32 .taken = perc 3#6 0b001#32 (weights [6, -1, -1]) ∧
    percTrain (withTheta (-1)) (perc 3#6 0#32 (weights [5])) 0#32 .taken = perc 3#6 0b001#32 (weights [5]) ∧
    percTrain (withTheta 1) (perc 3#6 1#32 (weights [1, -1, -1])) 0#32 .taken = perc 3#6 0b011#32 (weights [2, 0, -2]) := by decide

/-- V-P8 to V-P10: H = 0, and both ends of the accumulator. -/
theorem test_perceptron_ends :
    percTrain (withTheta 2) (perc 0#6 0#32 zeroWeights) 0#32 .taken = perc 0#6 0#32 zeroWeights ∧
    percY (perc 32#6 0xFFFFFFFF#32 (Vector.replicate 32 (-128))) 0#32 = -4096 ∧
    percY (perc 32#6 0#32 (weights (127 :: List.replicate 31 (-128)))) 0#32 = 4095 ∧
    percTrain (withTheta 2) (perc 32#6 0#32 (weights (127 :: List.replicate 31 (-128)))) 0#32 .notTaken =
      perc 32#6 0#32 (weights (126 :: List.replicate 31 (-127))) := by decide

/-- R236: the first non-OK response stays, with its command's index. -/
theorem test_first_error :
    recordError none 1 .notInit = some ⟨1, .notInit⟩ ∧ recordError (some ⟨1, .notInit⟩) 3 .cfgErr = some ⟨1, .notInit⟩ ∧
    recordError none 7 .ok = none := by decide

/-- R260 on a configured block: the registers are cleared and PHT stays. -/
theorem test_rst :
    seen { withBlock { blk .gshare 2#6 1#6 1#6 with ghr := 1#32, pht := [(1, .ST)] } with host := [.rst] } =
      some ({ Block.reset with pht := [(1, .ST)] }, none) := by decide

/-- The first command after reset, placed by withFetchWord (V-I4, V-I1). -/
theorem test_withFetchWord :
    seen (State.reset.withFetchWord 64 0x0000001000000001) = some (Block.reset, some 0b100#3) ∧
    seen (State.reset.withFetchWord 64 0) = some (blk .static 0#6 0#6 0#6, some 0b000#3) := by decide

/-! ### Witnesses: states and operands that meet the hypotheses of each statement, clause by clause -/

/-- The invariant of an INIT state, whose tables list nothing. -/
theorem blk_inv (bd : Build) (m : Mode) (g l p : Width) (hg : g.toNat ≤ bd.gMax) (hl : l.toNat ≤ bd.lMax)
    (hp : p.toNat ≤ bd.pMax) : Inv bd (blk m g l p) where
  gLegal := hg
  lLegal := hl
  pLegal := hp
  ghrMasked := by cases m <;> simp [blk, configured, Config.build]
  memory := rfl
  lhtMasked := fun _ => Nat.two_pow_pos _
  weightRange := fun _ j => by
    rw [show readPwt (blk m g l p) _ = zeroWeights from rfl, show zeroWeights[j] = 0 by simp [zeroWeights]]
    have : (0 : Int) < 2 ^ (bd.wbits - 1) := by positivity
    unfold wMin wMax; omega
  weightLive := fun _ j _ => by
    rw [show readPwt (blk m g l p) _ = zeroWeights from rfl]; simp [zeroWeights]
  phtLive := fun _ _ => rfl
  lhtLive := fun _ _ => rfl
  lptLive := fun _ _ => rfl
  gptLive := fun _ _ => rfl
  chtLive := fun _ _ => rfl
  pwtLive := fun _ _ => rfl

theorem witness_DecodeOfEncode :
    (Instr.initUnknownMode 4#3 0#6 0#6 0#6).wellFormed = true ∧
    (Instr.initUnknownMode 7#3 63#6 63#6 63#6).wellFormed = true ∧ (Instr.train 0xFFFFFFFF#32 .taken).wellFormed = true := by
  decide

theorem witness_EncodeOfDecode : decode 0x0000000000000004#64 = .instr (.initGshare 0#6 0#6 0#6) := by decide

theorem witness_DecoderIsTheOpcodeMap :
    (0x800000 % 4 = 0 ∧ 0x800000 / 2 ^ 23 ≠ 0) ∧
    (0x7FFFE0 % 4 = 0 ∧ 0x7FFFE0 / 2 ^ 23 = 0 ∧ 0x7FFFE0 / 4 % 8 = 0) ∧
    (0x7FFFE4 % 4 = 0 ∧ 0x7FFFE4 / 2 ^ 23 = 0 ∧ 0x7FFFE4 / 4 % 8 = 1) ∧
    (0x7FFFE8 % 4 = 0 ∧ 0x7FFFE8 / 2 ^ 23 = 0 ∧ 0x7FFFE8 / 4 % 8 = 2) ∧
    (0x7FFFEC % 4 = 0 ∧ 0x7FFFEC / 2 ^ 23 = 0 ∧ 0x7FFFEC / 4 % 8 = 3) ∧
    (0x10 % 4 = 0 ∧ 0x10 / 2 ^ 23 = 0 ∧ 4 ≤ 0x10 / 4 % 8) ∧ (0x7FFFFC % 4 = 0 ∧ 0x7FFFFC / 2 ^ 23 = 0 ∧ 4 ≤ 0x7FFFFC / 4 % 8) ∧
    (0x5 % 4 = 1 ∧ 0x5 / 4 % 2 ^ 30 ≠ 0) ∧ (0xFFFFFFFF00000001 % 4 = 1 ∧ 0xFFFFFFFF00000001 / 4 % 2 ^ 30 = 0) ∧
    (0xA % 4 = 2 ∧ 0xA / 8 % 2 ^ 29 ≠ 0) ∧ (0x2 % 4 = 2 ∧ 0x2 / 8 % 2 ^ 29 = 0 ∧ 0x2 / 4 % 2 = 0) ∧
    (0x6 % 4 = 2 ∧ 0x6 / 8 % 2 ^ 29 = 0 ∧ 0x6 / 4 % 2 = 1) ∧ 0x3 % 4 = 3 ∧
    (decode 0x3#64 = .instr (.reservedOp 0#62) ∧ opcodeRows[7]? = some ⟨3#64, 3#64⟩) ∧
    decode 0x5#64 = .illegal .predictReserved := by decide

theorem witness_StepRunsTheDecodedCommand :
    ((presents Block.reset 0x6#64).host = .command 0x6#64 :: [] ∧ decode 0x6#64 = .instr (.train 0#32 .taken)) ∧
    (Instr.initUnknownMode 4#3 0#6 0#6 0#6).wellFormed = true := by decide

theorem witness_ReservedEncodingAnswersIllegal :
    (presents Block.reset 0x800000#64).host = .command 0x800000#64 :: [] ∧
    (0xFFFFFFFFFFFFFFFF#64).toNat % 4 = 3 ∧ ((0x800000#64).toNat % 4 = 0 ∧ (0x800000#64).toNat / 2 ^ 23 ≠ 0) ∧
    ((0x80000001#64).toNat % 4 = 1 ∧ (0x80000001#64).toNat / 4 % 2 ^ 30 ≠ 0) ∧
    ((0x80000002#64).toNat % 4 = 2 ∧ (0x80000002#64).toNat / 8 % 2 ^ 29 ≠ 0) := by decide

/-- A reserved INIT of unknown mode; the four bad INITs and a good one; PREDICT and TRAIN, unconfigured and configured. -/
theorem witness_StatusIsDecidedInOrder :
    (presents Block.reset 0x800010#64).host = .command 0x800010#64 :: [] ∧
    (0x800010 % 4 = 0 ∧ 0x800010 / 2 ^ 23 ≠ 0) ∧
    (0x10 % 4 = 0 ∧ 0x10 / 2 ^ 23 = 0 ∧ 4 ≤ 0x10 / 4 % 8) ∧ (0x424 / 2 ^ 23 = 0 ∧ 32 < 0x424 / 2 ^ 5 % 64) ∧
    (0x10808 / 2 ^ 23 = 0 ∧ 32 < 0x10808 / 2 ^ 11 % 64) ∧ (0x42000C / 2 ^ 23 = 0 ∧ 32 < 0x42000C / 2 ^ 17 % 64) ∧
    (0x410404 % 4 = 0 ∧ 0x410404 / 2 ^ 23 = 0 ∧ ¬ (4 ≤ 0x410404 / 4 % 8 ∨ 32 < 0x410404 / 2 ^ 5 % 64 ∨
      32 < 0x410404 / 2 ^ 11 % 64 ∨ 32 < 0x410404 / 2 ^ 17 % 64)) ∧
    (0x1 % 4 = 1 ∧ 0x1 / 4 % 2 ^ 30 = 0) ∧ (0x6 % 4 = 2 ∧ 0x6 / 8 % 2 ^ 29 = 0) ∧
    Block.reset.cfgValid = false ∧ (blk .gshare 32#6 32#6 32#6).cfgValid = true := by decide

theorem witness_OneResponsePerCommand :
    (presents (blk .static 0#6 0#6 0#6) 0x1#64).host = .command 0x1#64 :: [] ∧
    (seen (presents (blk .static 0#6 0#6 0#6) 0x1#64)).map (·.2) = some (some 0b001#3) ∧
    (0b001#3).getLsbD 0 = true := by decide

theorem witness_IdleBlockHoldsItsState : State.reset.host = [] := rfl

theorem witness_HardwareResetClearsTheRegisters :
    { withBlock (blk .gshare 32#6 0#6 0#6) with host := [.rst] }.host = .rst :: [] ∧
    { withBlock (blk .gshare 32#6 0#6 0#6) with host := [.commandThenRst 6#64] }.host = .commandThenRst 6#64 :: [] := by
  decide

theorem witness_SuccessfulInitSetsEverything :
    ((0#6).toNat ≤ 32 ∧ (32#6).toNat ≤ 32) ∧ Mode.gshare ≠ Mode.perceptron ∧ Mode.perceptron = Mode.perceptron := by decide

theorem witness_FailedInitOnlyUnconfigures :
    (32 < (33#6).toNat ∨ 32 < (0#6).toNat ∨ 32 < (0#6).toNat) ∧ (32 < (32#6).toNat ∨ 32 < (33#6).toNat ∨ 32 < (0#6).toNat) ∧
    (32 < (0#6).toNat ∨ 32 < (0#6).toNat ∨ 32 < (63#6).toNat) ∧ 4 ≤ (4#3).toNat ∧ 4 ≤ (7#3).toNat := by decide

/-- A build with a smaller maximum refuses a width that this hardware accepts (R7). -/
theorem witness_InitValidatesAgainstTheBuild :
    (presents Block.reset (encodeInit 3#3 9#6 0#6 0#6)).host = .command (encodeInit 3#3 9#6 0#6 0#6) :: [] ∧
    (seenOn smallBuild (presents Block.reset (encodeInit 3#3 8#6 4#6 2#6))).map (·.1.cfgValid) = some true ∧
    (seenOn smallBuild (presents Block.reset (encodeInit 3#3 9#6 0#6 0#6))).map (·.1.cfgValid) = some false := by decide

theorem witness_InitForgetsTheEarlierBlock :
    (withBlock vt2).block ≠ State.reset.block ∧ (0#6).toNat ≤ 32 ∧ (32#6).toNat ≤ 32 := by decide

theorem witness_CfgValidFollowsTheLastInit :
    (∃ t, step { withBlock vt2 with host := [.rst] } = .next t) ∧
    (∃ t, step { withBlock vt2 with host := [.commandThenRst 6#64] } = .next t) ∧
    (presents Block.reset 0x1#64).host = .command 0x1#64 :: [] ∧
    (∃ t, step (presents Block.reset 0x1#64) = .next t) ∧
    decode 0x424#64 = .instr (initOf .gshare 33#6 0#6 0#6) ∧ decode 0x404#64 = .instr (initOf .gshare 32#6 0#6 0#6) ∧
    decode 0x10#64 = .instr (.initUnknownMode 4#3 0#6 0#6 0#6) ∧
    decode 0x1#64 = .instr (.predict 0#32) ∧ decode 0x6#64 = .instr (.train 0#32 .taken) ∧
    Block.reset.cfgValid = false := by
  refine ⟨⟨_, rfl⟩, ⟨_, rfl⟩, rfl, ⟨_, rfl⟩, ?_⟩
  decide

/-- A word that is no INIT: a PREDICT (also no TRAIN), and a TRAIN. -/
theorem witness_OnlyInitAndTrainWriteTheBlock :
    (presents Block.reset 0x1#64).host = .command 0x1#64 :: [] ∧ (∃ t, step (presents Block.reset 0x1#64) = .next t) ∧
    (∀ m g l p, decode 0x1#64 ≠ .instr (initOf m g l p)) ∧
    (∀ mode g l p, decode 0x1#64 ≠ .instr (.initUnknownMode mode g l p)) ∧
    (∀ pc o, decode 0x1#64 ≠ .instr (.train pc o)) := by
  have h : decode 0x1#64 = .instr (.predict 0#32) := by decide
  refine ⟨rfl, ⟨_, rfl⟩, ?_, ?_, ?_⟩ <;> rw [h]
  · intro m g l p; cases m <;> nofun
  · nofun
  · nofun

theorem witness_PredictWritesNoState :
    (presents vt2 0x1#64).block = (withBlock vt2).block ∧
    { withBlock vt2 with host := [.command 0x0000000500000001#64, .command 0x1#64, .rst] }.host =
      [5#32, 0#32].map (fun q => .command (encode (.predict q))) ++ [.rst] := by decide

theorem witness_UnconfiguredCommandsAnswerNotInit :
    State.reset.block.cfgValid = false ∧ (withBlock { vt2 with cfgValid := false }).block.cfgValid = false := by decide

theorem witness_ConfiguredCommandsAnswerOk : (withBlock (blk .perceptron 32#6 0#6 32#6)).block.cfgValid = true := by decide

theorem witness_TrainIgnoresEarlierPredicts :
    { withBlock (blk .gshare 2#6 0#6 0#6) with host := [.command 0x0000000500000001#64, .command 0x6#64] }.host =
      [5#32].map (fun q => .command (encode (.predict q))) ++ .command (encode (.train 0#32 .taken)) :: [] := by decide

/-- Of StaticPredictAnswersTaken and StaticTrainWritesNothing. -/
theorem witness_Static : Active (withBlock (blk .static 32#6 0#6 32#6)) .static := ⟨rfl, rfl⟩

/-- Of GsharePredictReadsTheIndexedCounter and GshareTrainMovesOneCounterAndShifts, at both ends of G. -/
theorem witness_Gshare :
    (Active (withBlock (blk .gshare 0#6 0#6 0#6)) .gshare ∧ (blk .gshare 0#6 0#6 0#6).cfgG.toNat ≤ 32 ∧
      Memory.wf (blk .gshare 0#6 0#6 0#6) = true) ∧
    (Active (withBlock (blk .gshare 32#6 0#6 0#6)) .gshare ∧ (blk .gshare 32#6 0#6 0#6).cfgG.toNat ≤ 32 ∧
      Memory.wf (writePht (blk .gshare 32#6 0#6 0#6) 0xFFFFFFFF#32 .ST) = true) :=
  ⟨⟨⟨rfl, rfl⟩, by decide, by decide⟩, ⟨rfl, rfl⟩, by decide, by decide⟩

theorem witness_GshareAfterInit :
    (0#6).toNat ≤ 32 ∧ (32#6).toNat ≤ 32 ∧ (∃ t, exec (.initGshare 32#6 0#6 0#6) State.reset = .next t) ∧
    ∃ t, exec (.initGshare 0#6 0#6 0#6) State.reset = .next t := ⟨by decide, by decide, ⟨_, rfl⟩, ⟨_, rfl⟩⟩

/-- Of TournamentPredictFollowsTheChoice and TournamentTrainFollowsItsSteps: both ends of the widths, and the four choices. -/
theorem witness_Tournament :
    (Active (withBlock vt2) .tournament ∧ Active (withBlock (blk .tournament 32#6 32#6 32#6)) .tournament) ∧
    (vt2.cfgG.toNat ≤ 32 ∧ vt2.cfgL.toNat ≤ 32 ∧ vt2.cfgP.toNat ≤ 32 ∧ Memory.wf vt2 = true) ∧
    (readCht vt2 vt2.ghr = .WL ∧ readCht (writeCht vt2 0#32 .SL) 0#32 = .SL) ∧
    (readCht (writeCht vt2 0#32 .WG) 0#32 = .WG ∧ readCht (writeCht vt2 0#32 .SG) 0#32 = .SG) :=
  ⟨⟨⟨rfl, rfl⟩, ⟨rfl, rfl⟩⟩, by decide, by decide, by decide⟩

theorem witness_ChoiceIsUntouchedUnderAgreement :
    (∃ t, exec (.train 0#32 .taken) (withBlock (blk .tournament 0#6 0#6 0#6)) = .next t) ∧
    taken (readLpt (blk .tournament 0#6 0#6 0#6) (readLht (blk .tournament 0#6 0#6 0#6) 0#32)) =
      taken (readGpt (blk .tournament 0#6 0#6 0#6) 0#32) ∧
    (1#32) ≠ (blk .tournament 1#6 0#6 0#6).ghr := ⟨⟨_, rfl⟩, by decide, by decide⟩

theorem witness_TheOtherPredictorIsNotRead :
    favorsLocal (readCht vt2 vt2.ghr) = true ∧
    favorsLocal (readCht (blk .tournament 1#6 1#6 1#6) (blk .tournament 1#6 1#6 1#6).ghr) = false := by decide

/-- The two clauses of PREDICT: V-P2 has y = 127, a zero vector has y = 0, and V-P1 has y = -6. -/
theorem witness_PerceptronPredictIsTheSignOfTheSum :
    Active (withBlock (perc 3#6 1#32 (weights [127, -128, 5]))) .perceptron ∧
    ((3#6).toNat ≤ 32 ∧ (0#6).toNat ≤ 32 ∧ (32#6).toNat ≤ 32) ∧
    percY (perc 3#6 1#32 (weights [-128, 127, -128])) 0#32 = 127 ∧ percY (perc 3#6 1#32 (weights [])) 0#32 = 0 ∧
    percY (perc 3#6 1#32 (weights [127, -128, 5])) 0#32 = -6 := ⟨⟨rfl, rfl⟩, by decide, by decide, by decide, by decide⟩

/-- The two clauses of TRAIN, each for a build: V-P1 mispredicts, V-P12 is within THETA, and V-P3 is neither. -/
theorem witness_PerceptronTrainClipsAndAlwaysShifts :
    (Active (withBlock (perc 3#6 3#32 (weights [127, 127, 127]))) .perceptron ∧
      Memory.wf (perc 3#6 3#32 (weights [127, 127, 127])) = true) ∧
    ¬ (0 ≤ percY (perc 3#6 1#32 (weights [127, -128, 5])) 0#32 ↔ Outcome.taken = .taken) ∧
    |percY (perc 3#6 1#32 (weights [1, -1, -1])) 0#32| ≤ (withTheta 1).theta ∧
    ¬ (¬ (0 ≤ percY (perc 3#6 3#32 (weights [127, 127, 127])) 0#32 ↔ Outcome.taken = .taken) ∨
      |percY (perc 3#6 3#32 (weights [127, 127, 127])) 0#32| ≤ (withTheta 2).theta) :=
  ⟨⟨⟨rfl, rfl⟩, by decide⟩, by decide, by decide, by decide⟩

theorem witness_ZeroWeightsPredictTaken :
    Active (withBlock (blk .perceptron 3#6 0#6 1#6)) .perceptron ∧
    ∀ j : Fin 32, (readPwt (blk .perceptron 3#6 0#6 1#6) (pcIndex (blk .perceptron 3#6 0#6 1#6) 2#32))[j] = 0 :=
  ⟨⟨rfl, rfl⟩, by decide⟩

theorem witness_AccumulatorNeverOverflows :
    (∀ j : Fin 32, -(2 ^ (smallBuild.wbits - 1)) ≤ (weights [-2, 1])[j] ∧ (weights [-2, 1])[j] ≤ 2 ^ (smallBuild.wbits - 1) - 1) ∧
    0 ≤ 32 ∧ (1 ≤ 1 ∧ 1 ≤ 32) ∧ (1 ≤ 32 ∧ 32 ≤ 32) ∧ smallBuild.wbits + 5 ≤ 7 := by decide

theorem witness_WeightMovesByOneOrSaturates :
    (2 ≤ 2 ∧ -(2 ^ (2 - 1)) ≤ (-2 : Int) ∧ (-2 : Int) ≤ 2 ^ (2 - 1) - 1 ∧ (-2 : Int) = -(2 ^ (2 - 1))) ∧
    (2 ≤ 8 ∧ -(2 ^ (8 - 1)) ≤ (126 : Int) ∧ (126 : Int) < 2 ^ (8 - 1) - 1) ∧
    ((127 : Int) ≤ 2 ^ (8 - 1) - 1 ∧ (127 : Int) = 2 ^ (8 - 1) - 1) ∧ -(2 ^ (8 - 1)) < (-127 : Int) := by decide

theorem witness_ConfidentCorrectTrainOnlyShifts :
    (0 ≤ percY (perc 3#6 3#32 (weights [127, 127, 127])) 0#32 ↔ Outcome.taken = .taken) ∧ (withTheta (-1)).theta < 0 ∧
    (withTheta 380).theta < |percY (perc 3#6 3#32 (weights [127, 127, 127])) 0#32| := by decide

theorem witness_SaturatingCounterLaws :
    3 ≤ 3 ∧ 0 ≤ 0 ∧ ((Counter.WN = .WN ∨ Counter.WN = .WT ∨ (Counter.WN = .SN ∧ Outcome.taken = .notTaken) ∨
      (Counter.WN = .ST ∧ Outcome.taken = .taken))) ∧
    ((Counter.ST = .WN ∨ Counter.ST = .WT ∨ (Counter.ST = .SN ∧ Outcome.taken = .notTaken) ∨
      (Counter.ST = .ST ∧ Outcome.taken = .taken))) := by decide

theorem witness_HistoryShiftInsertsAtBitZero : (0#6).toNat ≤ 32 ∧ (32#6).toNat ≤ 32 := by decide

/-- W4's outcomes, with W = 4, at both ends of the history. -/
theorem witness_HistoryHoldsTheLastOutcomes :
    (4#6).toNat ≤ 32 ∧ [Outcome.taken, .notTaken, .taken, .notTaken].length = (4#6).toNat ∧
    0 < (4#6).toNat ∧ 3 < (4#6).toNat := by decide

theorem witness_EveryStepKeepsTheInvariant :
    (Inv Config.build (presents (blk .gshare 32#6 32#6 32#6) 0x6#64).block ∧
      ∃ t, step (presents (blk .gshare 32#6 32#6 32#6) 0x6#64) = .next t) ∧
    (Inv smallBuild (presents (blk .perceptron 8#6 4#6 2#6) 0x6#64).block ∧
      ∃ t, stepOn smallBuild (presents (blk .perceptron 8#6 4#6 2#6) 0x6#64) = .next t) :=
  ⟨⟨blk_inv _ _ _ _ _ (by decide) (by decide) (by decide), ⟨_, rfl⟩⟩,
    ⟨blk_inv _ _ _ _ _ (by decide) (by decide) (by decide), ⟨_, rfl⟩⟩⟩

theorem witness_EveryIndexIsInRange :
    (Inv Config.build (blk .tournament 32#6 32#6 32#6) ∧ (blk .tournament 32#6 32#6 32#6).cfgValid = true) ∧
    (Inv smallBuild (blk .tournament 0#6 0#6 0#6) ∧ (blk .tournament 0#6 0#6 0#6).cfgValid = true) :=
  ⟨⟨blk_inv _ _ _ _ _ (by decide) (by decide) (by decide), rfl⟩, blk_inv _ _ _ _ _ (by decide) (by decide) (by decide), rfl⟩

theorem witness_ZeroWidthsDegenerate :
    Inv Config.build (blk .tournament 0#6 0#6 0#6) ∧ (blk .tournament 0#6 0#6 0#6).cfgValid = true ∧
    (blk .tournament 0#6 0#6 0#6).cfgG = 0#6 ∧ (blk .tournament 0#6 0#6 0#6).cfgL = 0#6 ∧
    (blk .tournament 0#6 0#6 0#6).cfgP = 0#6 :=
  ⟨blk_inv _ _ _ _ _ (by decide) (by decide) (by decide), rfl, rfl, rfl, rfl⟩

/-- A record that is set; an OK and a NOT_INIT response with none set; and a step that is no command. -/
theorem witness_FirstErrorIsSticky :
    (∃ t, step { presents Block.reset 0x1#64 with firstError := some ⟨1, .illegal⟩ } = .next t) ∧
    ((presents Block.reset 0x1#64).firstError = none ∧
      (seen (presents Block.reset 0x1#64)).map (·.2) = some (some 0b100#3) ∧ (0b100#3).toNat / 2 ≠ 0) ∧
    ((seen (presents Block.reset 0x0#64)).map (·.2) = some (some 0b000#3) ∧ (0b000#3).toNat / 2 = 0) ∧
    ∀ w rest, State.reset.host ≠ .command w :: rest := ⟨⟨_, rfl⟩, by decide, by decide, nofun⟩

theorem witness_CommandDependsOnTheBlockAlone :
    (presents vt2 0x1#64).block = (withBlock vt2).block ∧ presents vt2 0x1#64 ≠ withBlock vt2 := by decide

theorem witness_UnconfiguredContentsAreUnobservable :
    (presents { vt2 with cfgValid := false } 0x1#64).block.cfgValid = false ∧
    (presents Block.reset 0x1#64).block.cfgValid = false ∧
    (presents { vt2 with cfgValid := false } 0x1#64).host = (presents Block.reset 0x1#64).host := by decide

theorem witness_ReplayAfterInitIsDeterministic :
    { withBlock vt2 with host := [.command 0x44#64, .command 0x6#64] }.host =
      .command (encode (initOf .gshare 2#6 0#6 0#6)) :: [0x6#64].map .command ∧
    { State.reset with host := [.command 0x44#64, .command 0x6#64] }.host =
      { withBlock vt2 with host := [.command 0x44#64, .command 0x6#64] }.host ∧ (2#6).toNat ≤ 32 := by decide

/-- The ends of each field: 63 and 64, 2^32 - 1 and 2^32, 2^64 - 1 and 2^64. -/
theorem witness_OnlyWord64WritesReservedWords :
    assemble (.init .gshare (some 63) none none) = some [0x7E4#64] ∧
    (∀ v, AsmLine.init .gshare (some 63) none none ≠ .word64 v) ∧ assemble (.init .gshare none (some 64) none) = none ∧
    assemble (.branch 0xFFFFFFFF .taken) = some [0xFFFFFFFF00000001#64, 0xFFFFFFFF00000006#64] ∧
    assemble (.predict 0x100000000) = none ∧ assemble (.train 0x100000000 .taken) = none ∧
    assemble (.word64 0xFFFFFFFFFFFFFFFF) = some [0xFFFFFFFFFFFFFFFF#64] ∧ assemble (.word64 0x10000000000000000) = none :=
  ⟨by decide, nofun, by decide, by decide, by decide, by decide, by decide, by decide⟩

end Sys2Proof.Tests
end

/-! ## The scope of the block: decoding what was encoded, and what a step leaves of the block -/

namespace Sys2Proof.Machine

/-! ### The word of a command decodes to it -/

/-- The fields of a format I word are the fields it was built from (R82, R90). -/
theorem decode_encodeInit (mode : BitVec 3) (g l p : Width) :
    decode (encodeInit mode g l p) = .instr (decodeInit mode g l p) := by
  obtain ⟨-, hinit, -⟩ := decode_cases (encodeInit mode g l p)
  have hw := encodeInit_toNat mode g l p
  have hm := mode.isLt; have hg := g.isLt; have hl := l.isLt; have hp := p.isLt
  rw [hinit (by omega) (by omega), ← eq_ofNat_of_toNat (x := mode) (by omega), ← eq_ofNat_of_toNat (x := g) (by omega),
    ← eq_ofNat_of_toNat (x := l) (by omega), ← eq_ofNat_of_toNat (x := p) (by omega)]

theorem decodeInit_modeBits (m : Mode) (g l p : Width) : decodeInit (modeBits m) g l p = initOf m g l p := by
  cases m <;> rfl

theorem decodeInit_unknown {mode : BitVec 3} (h : 4 ≤ mode.toNat) (g l p : Width) :
    decodeInit mode g l p = .initUnknownMode mode g l p := by
  simp only [decodeInit, (modeOfBits_eq_none_iff mode).2 h]

/-- Every well-formed command is what its word decodes to, case by case of the decoder (R82, R83, R90). -/
theorem decode_encode {i : Instr} (h : i.wellFormed = true) : decode (encode i) = .instr i := by
  obtain ⟨-, -, -, hpredict, -, htrain, hreserved⟩ := decode_cases (encode i)
  cases i with
  | initStatic g l p => exact (decode_encodeInit _ g l p).trans (congrArg _ (decodeInit_modeBits .static g l p))
  | initGshare g l p => exact (decode_encodeInit _ g l p).trans (congrArg _ (decodeInit_modeBits .gshare g l p))
  | initTournament g l p =>
    exact (decode_encodeInit _ g l p).trans (congrArg _ (decodeInit_modeBits .tournament g l p))
  | initPerceptron g l p =>
    exact (decode_encodeInit _ g l p).trans (congrArg _ (decodeInit_modeBits .perceptron g l p))
  | initUnknownMode mode g l p =>
    exact (decode_encodeInit mode g l p).trans (congrArg _ (decodeInit_unknown (of_decide_eq_true h) g l p))
  | predict pc =>
    have hw := encode_predict_toNat pc
    have hpc := pc.isLt
    rw [hpredict (by omega) (by omega), ← eq_ofNat_of_toNat (x := pc) (by omega)]
  | train pc o =>
    have hw := encode_train_toNat pc o
    have hpc := pc.isLt; have ho := (outcomeBit o).isLt
    rw [htrain (by omega) (by omega), ← eq_ofNat_of_toNat (x := pc) (by omega),
      ← eq_ofNat_of_toNat (x := outcomeBit o) (by omega), outcomeOfBit_outcomeBit]
  | reservedOp rest =>
    have hw := encode_reservedOp_toNat rest
    have hrest := rest.isLt
    rw [hreserved (by omega), ← eq_ofNat_of_toNat (x := rest) (by omega)]

/-- The whole of a word is the word. -/
theorem tableWord_toNat (w : CmdWord) : tableWord 64 w.toNat = w :=
  (eq_ofNat_of_toNat (by omega)).symm

/-- Whatever row of the opcode table the MODE field selects, the command is the one operation INIT (R120). -/
theorem perform_decodeInit (bd : Build) (mode : BitVec 3) (g l p : Width) (s : State) :
    perform bd (decodeInit mode g l p) s = initCommand bd mode g l p s := by
  cases hm : modeOfBits mode with
  | none => rw [decodeInit_unknown ((modeOfBits_eq_none_iff mode).1 hm)]; rfl
  | some m => rw [modeBits_of_modeOfBits hm, decodeInit_modeBits, perform_initOf]

/-! ### What a step of a build leaves of the block -/

/-- All a step can leave of the block: nothing changed, the registers were reset, with or without an abandoned command,
or a command was performed. -/
inductive BlockAfterStep (bd : Build) (b : Block) : Block → Prop
  /-- Nothing was presented, or the decoder rejected the word. -/
  | same : BlockAfterStep bd b b
  /-- rst between commands. -/
  | reset : BlockAfterStep bd b (resetRegisters b)
  /-- rst during a command. -/
  | abandoned (n : Nat) : BlockAfterStep bd b (resetRegisters (freeTables bd n b))
  /-- A decoded command. -/
  | performed {b' : Block} (i : Instr) (h : BlockAfter bd i b b') : BlockAfterStep bd b b'

theorem blockAfterStep_of_stepOn {bd : Build} {s t : State} (h : stepOn bd s = .next t) :
    BlockAfterStep bd s.block t.block := by
  rcases hs : s.host with _ | ⟨w | _ | w, rest⟩
  · rw [stepOn_idle hs] at h; cases h; exact .same
  · rw [stepOn_command hs] at h
    cases hd : decode w with
    | instr i =>
      obtain ⟨st, pred, b, he, hb⟩ := perform_cases bd i (acceptCommand rest s)
      rw [runWord_instr hd, he] at h
      cases h
      exact .performed i hb
    | illegal r => rw [runWord_illegal hd] at h; cases h; exact .same
  · rw [stepOn_rst hs] at h; cases h; exact .reset
  · rw [stepOn_commandThenRst hs] at h; cases h; exact .abandoned _

/-! ### The operations keep the invariant of the block -/

theorem liveWidth_configured {b : Block} (h : b.cfgValid = true) (cfg : Width) (built : Nat) :
    liveWidth b cfg built = cfg.toNat := by simp [liveWidth, h]

/-- Unconfiguring a block can only widen the live part of its tables. -/
theorem liveWidth_le {b : Block} {cfg : Width} {built : Nat} (h : cfg.toNat ≤ built) : liveWidth b cfg built ≤ built := by
  unfold liveWidth; split
  · exact h
  · exact le_rfl

namespace Inv

variable {bd : Build} {b : Block}

theorem cfgG_le (h : Inv bd b) : b.cfgG.toNat ≤ 32 := h.gLegal.trans bd.gMax_le
theorem cfgL_le (h : Inv bd b) : b.cfgL.toNat ≤ 32 := h.lLegal.trans bd.lMax_le
theorem cfgP_le (h : Inv bd b) : b.cfgP.toNat ≤ 32 := h.pLegal.trans bd.pMax_le

/-! Each write keeps the invariant when its index is live and its value fits the entry. -/

protected theorem writePht (h : Inv bd b) {i : Word} (hi : i.toNat < 2 ^ liveWidth b b.cfgG bd.gMax) (v : Counter) :
    Inv bd (writePht b i v) :=
  { h with
    memory := memory_wf_writePht h.memory i v
    phtLive := fun j hj => by
      rw [readPht_writePht h.memory, if_neg (by rintro rfl; exact absurd hi (not_lt.2 hj))]
      exact h.phtLive j hj }

protected theorem writeLht (h : Inv bd b) {i : Word} (hi : i.toNat < 2 ^ liveWidth b b.cfgP bd.pMax) {v : History}
    (hv : v.toNat < 2 ^ liveWidth b b.cfgL bd.lMax) : Inv bd (writeLht b i v) :=
  { h with
    memory := memory_wf_writeLht h.memory i v
    lhtMasked := fun j => by
      rw [readLht_writeLht h.memory]; split
      · exact hv
      · exact h.lhtMasked j
    lhtLive := fun j hj => by
      rw [readLht_writeLht h.memory, if_neg (by rintro rfl; exact absurd hi (not_lt.2 hj))]
      exact h.lhtLive j hj }

protected theorem writeLpt (h : Inv bd b) {i : Word} (hi : i.toNat < 2 ^ liveWidth b b.cfgL bd.lMax) (v : Counter) :
    Inv bd (writeLpt b i v) :=
  { h with
    memory := memory_wf_writeLpt h.memory i v
    lptLive := fun j hj => by
      rw [readLpt_writeLpt h.memory, if_neg (by rintro rfl; exact absurd hi (not_lt.2 hj))]
      exact h.lptLive j hj }

protected theorem writeGpt (h : Inv bd b) {i : Word} (hi : i.toNat < 2 ^ liveWidth b b.cfgG bd.gMax) (v : Counter) :
    Inv bd (writeGpt b i v) :=
  { h with
    memory := memory_wf_writeGpt h.memory i v
    gptLive := fun j hj => by
      rw [readGpt_writeGpt h.memory, if_neg (by rintro rfl; exact absurd hi (not_lt.2 hj))]
      exact h.gptLive j hj }

protected theorem writeCht (h : Inv bd b) {i : Word} (hi : i.toNat < 2 ^ liveWidth b b.cfgG bd.gMax) (v : Choice) :
    Inv bd (writeCht b i v) :=
  { h with
    memory := memory_wf_writeCht h.memory i v
    chtLive := fun j hj => by
      rw [readCht_writeCht h.memory, if_neg (by rintro rfl; exact absurd hi (not_lt.2 hj))]
      exact h.chtLive j hj }

protected theorem writePwt (h : Inv bd b) {i : Word} (hi : i.toNat < 2 ^ liveWidth b b.cfgP bd.pMax) {v : WeightVec}
    (hrange : ∀ j : Fin 32, wMin bd.wbits ≤ v[j] ∧ v[j] ≤ wMax bd.wbits)
    (hlive : ∀ j : Fin 32, liveWidth b b.cfgG bd.gMax ≤ j.val → v[j] = 0) : Inv bd (writePwt b i v) :=
  { h with
    memory := memory_wf_writePwt h.memory i v
    weightRange := fun k j => by
      rw [readPwt_writePwt h.memory]; split
      · exact hrange j
      · exact h.weightRange k j
    weightLive := fun k j hj => by
      rw [readPwt_writePwt h.memory]; split
      · exact hlive j hj
      · exact h.weightLive k j hj
    pwtLive := fun k hk => by
      rw [readPwt_writePwt h.memory, if_neg (by rintro rfl; exact absurd hi (not_lt.2 hk))]
      exact h.pwtLive k hk }

protected theorem shiftGhr (h : Inv bd b) (o : Outcome) : Inv bd (shiftGhr b o) :=
  { h with ghrMasked := hshift_masked _ _ _ }

/-- A block that loses its configuration keeps the invariant, whatever its registers become: its tables may then hold
anything within the built tables (R122, R260). -/
theorem unconfigure (h : Inv bd b) (m : Mode) {g l p : Width} {ghr : History} (hg : g.toNat ≤ bd.gMax)
    (hl : l.toNat ≤ bd.lMax) (hp : p.toNat ≤ bd.pMax) (hghr : ghr &&& ~~~ mask g = 0#32) :
    Inv bd { b with cfgValid := false, cfgMode := m, cfgG := g, cfgL := l, cfgP := p, ghr := ghr } :=
  have hG := liveWidth_le (b := b) h.gLegal
  have hL := Nat.pow_le_pow_right (n := 2) (by norm_num) (liveWidth_le (b := b) h.lLegal)
  have hP := Nat.pow_le_pow_right (n := 2) (by norm_num) (liveWidth_le (b := b) h.pLegal)
  have hG2 := Nat.pow_le_pow_right (n := 2) (by norm_num) hG
  { gLegal := hg
    lLegal := hl
    pLegal := hp
    ghrMasked := hghr
    memory := h.memory
    lhtMasked := fun i => (h.lhtMasked i).trans_le hL
    weightRange := h.weightRange
    weightLive := fun i j hj => h.weightLive i j (hG.trans hj)
    phtLive := fun i hi => h.phtLive i (hG2.trans hi)
    lhtLive := fun i hi => h.lhtLive i (hP.trans hi)
    lptLive := fun i hi => h.lptLive i (hL.trans hi)
    gptLive := fun i hi => h.gptLive i (hG2.trans hi)
    chtLive := fun i hi => h.chtLive i (hG2.trans hi)
    pwtLive := fun i hi => h.pwtLive i (hP.trans hi) }

theorem failedInit (h : Inv bd b) : Inv bd { b with cfgValid := false } :=
  h.unconfigure b.cfgMode h.gLegal h.lLegal h.pLegal h.ghrMasked

protected theorem resetRegisters (h : Inv bd b) : Inv bd (resetRegisters b) :=
  h.unconfigure .static (Nat.zero_le _) (Nat.zero_le _) (Nat.zero_le _) rfl

end Inv

/-! ### Free contents, and a configured block -/

/-- A property of the INIT value and of every given entry holds of every entry of the table made from them. -/
theorem readTable_tableOf_induction {α : Type} [DecidableEq α] {d : α} {entries : List (Word × α)} {P : Nat → α → Prop}
    (hd : ∀ j, P j d) (he : ∀ e ∈ entries, P e.1.toNat e.2) (j : Nat) : P j (readTable d (tableOf d entries) j) := by
  rcases readTable_tableOf d entries j with h | ⟨e, hmem, hj, h⟩
  · rw [h]; exact hd j
  · rw [h, ← hj]; exact he e hmem

/-- No entry of a table of 2^width entries is at or above 2^width. -/
theorem readTable_tableOf_builtEntries {α : Type} [DecidableEq α] {d : α} {width : Nat} {entries : List (Word × α)}
    (j : Nat) : 2 ^ width ≤ j → readTable d (tableOf d (builtEntries width entries)) j = d :=
  readTable_tableOf_induction (P := fun j v => 2 ^ width ≤ j → v = d) (fun _ _ => rfl)
    (fun _ he hj => absurd (of_decide_eq_true (List.mem_filter.1 he).2) (not_lt.2 hj)) j

/-- A property of the INIT value and of every mapped value holds of every entry of the table made from the mapped
entries that the table has. -/
theorem readTable_tableOf_builtEntries_map {α : Type} [DecidableEq α] {d : α} {width : Nat} {entries : List (Word × α)}
    {f : α → α} {P : α → Prop} (hd : P d) (hf : ∀ v, P (f v)) (j : Nat) :
    P (readTable d (tableOf d (builtEntries width (entries.map fun e => (e.1, f e.2)))) j) := by
  refine readTable_tableOf_induction (P := fun _ v => P v) (fun _ => hd) (fun e he => ?_) j
  obtain ⟨e', -, rfl⟩ := List.mem_map.1 (List.mem_filter.1 he).1
  exact hf e'.2

theorem zeroWeights_mem (wbits : Nat) (j : Fin 32) :
    wMin wbits ≤ zeroWeights[j] ∧ zeroWeights[j] ≤ wMax wbits := by
  have : (0 : Int) < 2 ^ (wbits - 1) := by positivity
  rw [zeroWeights_get]
  unfold wMin wMax; omega

theorem builtWeights_mem (bd : Build) (w : WeightVec) (j : Fin 32) :
    wMin bd.wbits ≤ (builtWeights bd w)[j] ∧ (builtWeights bd w)[j] ≤ wMax bd.wbits := by
  rw [builtWeights_get]; split
  · exact clipWeight_mem _ _
  · rw [← zeroWeights_get j]; exact zeroWeights_mem _ j

theorem builtWeights_live (bd : Build) (w : WeightVec) {j : Fin 32} (hj : bd.gMax ≤ j.val) :
    (builtWeights bd w)[j] = 0 := by
  rw [builtWeights_get, if_neg (by omega)]

/-- Local histories masked to L_MAX bits fit in L_MAX bits. -/
theorem and_mask_lMax_lt (bd : Build) (x : History) : (x &&& mask (BitVec.ofNat 6 bd.lMax)).toNat < 2 ^ bd.lMax := by
  have hl : bd.lMax ≤ 32 := bd.lMax_le
  have hw : (BitVec.ofNat 6 bd.lMax).toNat = bd.lMax := by
    rw [BitVec.toNat_ofNat]; exact Nat.mod_eq_of_lt (by omega)
  have := and_mask_lt x (w := BitVec.ofNat 6 bd.lMax) (by omega)
  rwa [hw] at this

/-- After an abandoned command the tables hold anything the build's tables can hold (U5). -/
theorem inv_resetRegisters_freeTables (bd : Build) (n : Nat) (b : Block) :
    Inv bd (resetRegisters (freeTables bd n b)) where
  gLegal := Nat.zero_le _
  lLegal := Nat.zero_le _
  pLegal := Nat.zero_le _
  ghrMasked := BitVec.zero_and
  memory := memory_wf_resetRegisters (memory_wf_freeTables bd n b)
  lhtMasked := fun i => readTable_tableOf_builtEntries_map (P := fun v : History => v.toNat < 2 ^ bd.lMax)
    (Nat.two_pow_pos _) (and_mask_lMax_lt bd) i.toNat
  weightRange := fun i j => readTable_tableOf_builtEntries_map
    (P := fun w : WeightVec => wMin bd.wbits ≤ w[j] ∧ w[j] ≤ wMax bd.wbits)
    (zeroWeights_mem _ j) (fun w => builtWeights_mem bd w j) i.toNat
  weightLive := fun i j hj => readTable_tableOf_builtEntries_map (P := fun w : WeightVec => w[j] = 0)
    (zeroWeights_get j) (fun w => builtWeights_live bd w hj) i.toNat
  phtLive := fun i => readTable_tableOf_builtEntries i.toNat
  lhtLive := fun i => readTable_tableOf_builtEntries i.toNat
  lptLive := fun i => readTable_tableOf_builtEntries i.toNat
  gptLive := fun i => readTable_tableOf_builtEntries i.toNat
  chtLive := fun i => readTable_tableOf_builtEntries i.toNat
  pwtLive := fun i => readTable_tableOf_builtEntries i.toNat

theorem widthsLegal_iff (bd : Build) (g l p : Width) :
    widthsLegal bd g l p = true ↔ g.toNat ≤ bd.gMax ∧ l.toNat ≤ bd.lMax ∧ p.toNat ≤ bd.pMax := by
  simp only [widthsLegal, Bool.and_eq_true, decide_eq_true_eq, and_assoc]

/-- The block a successful INIT leaves: legal widths, a masked GHR, and tables that list nothing (R121, R122). -/
theorem inv_configured {bd : Build} {g l p : Width} (m : Mode) (h : widthsLegal bd g l p = true) :
    Inv bd (configured bd m g l p) := by
  obtain ⟨hg, hl, hp⟩ := (widthsLegal_iff bd g l p).1 h
  exact
    { gLegal := hg
      lLegal := hl
      pLegal := hp
      ghrMasked := by cases m <;> simp
      memory := memory_wf_configured bd m g l p
      lhtMasked := fun _ => Nat.two_pow_pos _
      weightRange := fun _ j => zeroWeights_mem _ j
      weightLive := fun _ j _ => zeroWeights_get j
      phtLive := fun _ _ => rfl
      lhtLive := fun _ _ => rfl
      lptLive := fun _ _ => rfl
      gptLive := fun _ _ => rfl
      chtLive := fun _ _ => rfl
      pwtLive := fun _ _ => rfl }

/-! ### TRAIN keeps the invariant of a configured block, mode by mode -/

namespace Inv

variable {bd : Build} {b : Block}

/-- The indices that TRAIN forms are live (R62). -/
theorem ghr_live (h : Inv bd b) (hv : b.cfgValid = true) : b.ghr.toNat < 2 ^ liveWidth b b.cfgG bd.gMax := by
  rw [liveWidth_configured hv]; exact lt_of_masked h.cfgG_le h.ghrMasked

theorem gshareIndex_live (h : Inv bd b) (hv : b.cfgValid = true) (pc : Word) :
    (gshareIndex b pc).toNat < 2 ^ liveWidth b b.cfgG bd.gMax := by
  have hghr := h.ghr_live hv
  rw [liveWidth_configured hv] at hghr ⊢
  rw [gshareIndex, BitVec.toNat_xor]
  exact Nat.xor_lt_two_pow hghr (and_mask_lt pc h.cfgG_le)

theorem pcIndex_live (h : Inv bd b) (hv : b.cfgValid = true) (pc : Word) :
    (pcIndex b pc).toNat < 2 ^ liveWidth b b.cfgP bd.pMax := by
  rw [liveWidth_configured hv]; exact and_mask_lt pc h.cfgP_le

theorem hshift_live (h : Inv bd b) (hv : b.cfgValid = true) (x : History) (o : Outcome) :
    (hshift x o b.cfgL).toNat < 2 ^ liveWidth b b.cfgL bd.lMax := by
  rw [liveWidth_configured hv]; exact lt_of_masked h.cfgL_le (hshift_masked x o b.cfgL)

protected theorem gshareTrain (h : Inv bd b) (hv : b.cfgValid = true) (pc : Word) (o : Outcome) : Inv bd (gshareTrain b pc o) :=
  (h.writePht (h.gshareIndex_live hv pc) _).shiftGhr o

protected theorem trainChoice (h : Inv bd b) {k : TournamentLookup} (hk : k.gIdx.toNat < 2 ^ liveWidth b b.cfgG bd.gMax)
    (o : Outcome) : Inv bd (trainChoice b k o) := by
  unfold trainChoice; split
  · exact h
  · exact h.writeCht hk _

protected theorem tournamentTrain (h : Inv bd b) (hv : b.cfgValid = true) (pc : Word) (o : Outcome) :
    Inv bd (tournamentTrain b pc o) :=
  have hlpt := h.writeLpt (h.lhtMasked (pcIndex b pc)) (ctrNext (tournamentLookup b pc).localVote o)
  have hlht := hlpt.writeLht (hlpt.pcIndex_live hv pc) (hlpt.hshift_live hv (tournamentLookup b pc).localHist o)
  have hgpt := hlht.writeGpt (hlht.ghr_live hv) (ctrNext (tournamentLookup b pc).globalVote o)
  (hgpt.trainChoice (k := tournamentLookup b pc) (hgpt.ghr_live hv) o).shiftGhr o

/-- The trained weights are clipped, and those at and past H are not touched (R205). -/
protected theorem trainWeights (h : Inv bd b) (hv : b.cfgValid = true) (pc : Word) (o : Outcome) :
    Inv bd (trainWeights bd b pc o) := by
  have hwrite : Inv bd (writePwt b (pcIndex b pc)
      (updateWeights bd.wbits (readPwt b (pcIndex b pc)) b.ghr b.cfgG.toNat o)) := by
    refine h.writePwt (h.pcIndex_live hv pc) (fun j => ?_) (fun j hj => ?_)
    · rw [updateWeights_get]; split
      · exact clipWeight_mem _ _
      · exact h.weightRange _ j
    · have hG := liveWidth_configured hv b.cfgG bd.gMax
      rw [updateWeights_get, if_neg (by omega)]
      exact h.weightLive _ j hj
  unfold trainWeights
  cases percTrains bd.theta (percY b pc) o
  · exact h
  · exact hwrite

protected theorem trainBlock (h : Inv bd b) (hv : b.cfgValid = true) (pc : Word) (o : Outcome) : Inv bd (trainBlock bd b pc o) := by
  cases hm : b.cfgMode with
  | static => rw [trainBlock_static bd pc o hm]; exact h
  | gshare => rw [trainBlock_gshare bd pc o hm]; exact h.gshareTrain hv pc o
  | tournament => rw [trainBlock_tournament bd pc o hm]; exact h.tournamentTrain hv pc o
  | perceptron => rw [trainBlock_perceptron bd pc o hm]; exact (h.trainWeights hv pc o).shiftGhr o

/-- Every command keeps the invariant. -/
theorem of_blockAfter {i : Instr} {b' : Block} (h : Inv bd b) (hb : BlockAfter bd i b b') : Inv bd b' := by
  cases hb with
  | same => exact h
  | failed => exact h.failedInit
  | init mode m g l p _ hw => exact inv_configured m hw
  | train pc o _ hv => exact h.trainBlock hv pc o

/-- Every input of the host keeps the invariant. -/
theorem of_blockAfterStep {b' : Block} (h : Inv bd b) (hb : BlockAfterStep bd b b') : Inv bd b' := by
  cases hb with
  | same => exact h
  | reset => exact h.resetRegisters
  | abandoned n => exact inv_resetRegisters_freeTables bd n b
  | performed i hi => exact h.of_blockAfter hi

theorem of_stepOn {s t : State} (h : Inv bd s.block) (hs : stepOn bd s = .next t) : Inv bd t.block :=
  h.of_blockAfterStep (blockAfterStep_of_stepOn hs)

end Inv

/-- Settles O43: every input the host can present keeps the invariant, and this hardware's step is its build's. -/
theorem everyStepKeepsTheInvariant : Obligations.EveryStepKeepsTheInvariant :=
  ⟨fun s _ h hs => h.of_stepOn ((step_eq_stepOn s).symm.trans hs), fun _ _ _ h hs => h.of_stepOn hs⟩

end Sys2Proof.Machine

/-! ## INIT of every build, the accumulator, the step and the weight step (00_scope.md R5, R7; R122, R203, R205) -/

namespace Sys2Proof.Machine

/-! ### INIT against the build -/

theorem modeOfBits_some_le {mode : BitVec 3} {m : Mode} (h : modeOfBits mode = some m) : mode.toNat ≤ 3 := by
  have hnone := (modeOfBits_eq_none_iff mode).not.1 (by rw [h]; exact Option.some_ne_none m)
  omega

/-- INIT succeeds exactly for a known mode and widths within the build's maxima (R87, R122). -/
theorem initCommand_cfgValid_iff (bd : Build) (mode : BitVec 3) (g l p : Width) (s : State) :
    (initCommand bd mode g l p s).block.cfgValid = true ↔
      mode.toNat ≤ 3 ∧ g.toNat ≤ bd.gMax ∧ l.toNat ≤ bd.lMax ∧ p.toNat ≤ bd.pMax := by
  rcases initCommand_cases bd mode g l p s with ⟨m, hm, hw, he⟩ | ⟨hbad, he⟩
  · rw [he]
    exact iff_of_true rfl ⟨modeOfBits_some_le hm, (widthsLegal_iff bd g l p).1 hw⟩
  · rw [he]
    refine iff_of_false Bool.false_ne_true fun ⟨hmode, hwidths⟩ => ?_
    rcases hbad with hnone | hw
    · have := (modeOfBits_eq_none_iff mode).1 hnone
      omega
    · rw [(widthsLegal_iff bd g l p).2 hwidths] at hw
      cases hw

/-- What INIT loads into GHR: PERC_HSEED masked to g bits in PERCEPTRON mode, else 0 (R121). -/
theorem configured_ghr_toNat (bd : Build) {mode : BitVec 3} {m : Mode} {g l p : Width} (hm : modeOfBits mode = some m)
    (hg : g.toNat ≤ bd.gMax) : (configured bd m g l p).ghr.toNat =
      if mode.toNat = 3 then bd.percHseed.toNat % 2 ^ g.toNat else 0 := by
  rw [modeBits_of_modeOfBits hm]
  cases m with
  | perceptron => exact and_mask_toNat _ (hg.trans bd.gMax_le)
  | static | gshare | tournament => rfl

/-- A step of a build on an INIT word is INIT. -/
theorem stepOn_encodeInit {bd : Build} {mode : BitVec 3} {g l p : Width} {s : State} {rest : List HostInput}
    (h : s.host = .command (encodeInit mode g l p) :: rest) :
    stepOn bd s = .next (initCommand bd mode g l p (acceptCommand rest s)) := by
  rw [stepOn_command h, runWord_instr (decode_encodeInit mode g l p), perform_decodeInit]

/-- Settles O16, by the two cases of INIT. -/
theorem initValidatesAgainstTheBuild : Obligations.InitValidatesAgainstTheBuild := by
  intro bd mode g l p s rest h
  refine ⟨_, stepOn_encodeInit h, initCommand_cfgValid_iff bd mode g l p _, ?_⟩
  rcases initCommand_cases bd mode g l p (acceptCommand rest s) with ⟨m, hm, hw, he⟩ | ⟨-, he⟩
  · rw [he]
    exact ⟨fun _ => ⟨rfl, rfl, rfl, rfl, configured_ghr_toNat bd hm ((widthsLegal_iff bd g l p).1 hw).1⟩, nofun⟩
  · rw [he]
    exact ⟨nofun, fun _ => ⟨rfl, rfl⟩⟩

/-! ### The dot product and its accumulator -/

theorem product_zero (w : WeightVec) (ghr : History) : product w ghr 0 = weightAt w 0 := mul_one _

section Bounds
variable {w : WeightVec} {k : Int} (hk : 0 < k) (hw : ∀ j : Fin 32, -k ≤ w[j] ∧ w[j] ≤ k - 1) (ghr : History)
include hk hw

/-- The product with the bias entry, which is always +1, is a weight. -/
theorem product_zero_mem : -k ≤ product w ghr 0 ∧ product w ghr 0 ≤ k - 1 := by
  rw [product_zero]; exact weightAt_mem (by omega) (by omega) hw 0

/-- A product is a weight or its opposite. -/
theorem product_mem (i : Nat) : -k ≤ product w ghr i ∧ product w ghr i ≤ k := by
  obtain ⟨hlo, hhi⟩ := weightAt_mem (by omega) (by omega) hw i
  rcases historyEntry_cases ghr i with he | he <;> rw [product, he] <;> omega

/-- The bounds of R203: only the bias product is kept from the upper end. -/
theorem dot_succ_mem (h : Nat) :
    -(((h + 1 : Nat) : Int) * k) ≤ dot w ghr (h + 1) ∧ dot w ghr (h + 1) ≤ ((h + 1 : Nat) : Int) * k - 1 := by
  induction h with
  | zero => simpa [dot_succ, product] using product_zero_mem hk hw ghr
  | succ h ih =>
    obtain ⟨hlo, hhi⟩ := product_mem hk hw ghr (h + 1)
    have hmul : ((h + 1 + 1 : Nat) : Int) * k = ((h + 1 : Nat) : Int) * k + k := by push_cast; ring
    rw [dot_succ, hmul]
    unfold product at hlo hhi
    omega

theorem dot_mem_of_le {h : Nat} (hh : h ≤ 32) : -(32 * k) ≤ dot w ghr h ∧ dot w ghr h < 32 * k := by
  cases h with
  | zero => rw [dot_zero]; omega
  | succ h =>
    obtain ⟨hlo, hhi⟩ := dot_succ_mem hk hw ghr h
    have hmul : ((h + 1 : Nat) : Int) * k ≤ 32 * k := mul_le_mul_of_nonneg_right (by exact_mod_cast hh) hk.le
    omega

end Bounds

/-- The accumulator holds the exact sum modulo 2^n, as wrapping addition is addition modulo 2^n. -/
theorem accumulate_eq_ofInt_dot (n : Nat) (w : WeightVec) (ghr : History) (h : Nat) :
    accumulate n w ghr h = BitVec.ofInt n (dot w ghr h) := by
  induction h with
  | zero => simp
  | succ h ih => rw [accumulate_succ, dot_succ, BitVec.ofInt_add, ih]

/-- 32 weights of WBITS bits take 5 more bits. -/
theorem thirtyTwo_mul_two_pow {wbits : Nat} (h : 2 ≤ wbits) : 32 * (2 : Int) ^ (wbits - 1) = 2 ^ (wbits + 4) := by
  obtain ⟨m, rfl⟩ := Nat.exists_eq_add_of_le h
  rw [show 2 + m - 1 = m + 1 by omega]
  ring

theorem accumulate_toInt {wbits : Nat} (hb : 2 ≤ wbits) {w : WeightVec} (ghr : History)
    (hw : ∀ j : Fin 32, -(2 ^ (wbits - 1)) ≤ w[j] ∧ w[j] ≤ 2 ^ (wbits - 1) - 1) {h : Nat} (hh : h ≤ 32) {n : Nat}
    (hn : wbits + 5 ≤ n) : (accumulate n w ghr h).toInt = dot w ghr h := by
  obtain ⟨hlo, hhi⟩ := dot_mem_of_le (by positivity) hw ghr hh
  have hpow : (2 : Int) ^ (wbits + 4) ≤ 2 ^ (n - 1) := pow_le_pow_right₀ (by norm_num) (by omega)
  rw [thirtyTwo_mul_two_pow hb] at hlo hhi
  rw [accumulate_eq_ofInt_dot]
  exact BitVec.toInt_ofInt_eq_self (by omega) (by omega) (by omega)

/-! ### Both ends are reached -/

/-- The vector whose bias weight is a and whose other weights are c. -/
def biasedWeights (a c : Int) : WeightVec := Vector.ofFn fun j => if j.val = 0 then a else c

theorem biasedWeights_mem {a c lo hi : Int} (ha : lo ≤ a ∧ a ≤ hi) (hc : lo ≤ c ∧ c ≤ hi) (j : Fin 32) :
    lo ≤ (biasedWeights a c)[j] ∧ (biasedWeights a c)[j] ≤ hi := by
  have hj : (biasedWeights a c)[j] = if j.val = 0 then a else c := by simp [biasedWeights]
  rw [hj]; split
  · exact ha
  · exact hc

theorem weightAt_biasedWeights_zero (a c : Int) : weightAt (biasedWeights a c) 0 = a := by
  simp [weightAt, biasedWeights]

theorem weightAt_biasedWeights_succ (a c : Int) {i : Nat} (hi : i + 1 < 32) :
    weightAt (biasedWeights a c) (i + 1) = c := by
  simp [weightAt, biasedWeights, hi]

/-- Under a history all of whose entries past the bias are e, the sum is the bias weight and 31 equal products. -/
theorem dot_biasedWeights (a c e : Int) {ghr : History} (he : ∀ i, i + 1 < 32 → historyEntry ghr (i + 1) = e) {h : Nat}
    (hh : h < 32) : dot (biasedWeights a c) ghr (h + 1) = a + h * (c * e) := by
  induction h with
  | zero => simp [dot_succ, weightAt_biasedWeights_zero, historyEntry]
  | succ h ih =>
    rw [dot_succ, ih (by omega), weightAt_biasedWeights_succ a c hh, he h hh]
    push_cast; ring

theorem historyEntry_allOnes {i : Nat} (hi : i + 1 < 32) : historyEntry (BitVec.allOnes 32) (i + 1) = 1 := by
  rw [historyEntry, BitVec.getLsbD_allOnes, if_pos (decide_eq_true (by omega))]

theorem historyEntry_zeros (i : Nat) : historyEntry 0#32 (i + 1) = -1 := by simp [historyEntry]

theorem dot_lowest {wbits : Nat} (hb : 2 ≤ wbits) :
    dot (biasedWeights (wMin wbits) (wMin wbits)) (BitVec.allOnes 32) 32 = -(2 ^ (wbits + 4)) := by
  rw [dot_biasedWeights _ _ 1 (fun _ hi => historyEntry_allOnes hi) (by norm_num), ← thirtyTwo_mul_two_pow hb, wMin]
  push_cast; ring

theorem dot_highest {wbits : Nat} (hb : 2 ≤ wbits) :
    dot (biasedWeights (wMax wbits) (wMin wbits)) 0#32 32 = 2 ^ (wbits + 4) - 1 := by
  rw [dot_biasedWeights _ _ (-1) (fun i _ => historyEntry_zeros i) (by norm_num), ← thirtyTwo_mul_two_pow hb, wMin, wMax]
  push_cast; ring

/-- Settles O36: the bounds by induction on H, the accumulator as the sum modulo 2^n, and a vector for each end. -/
theorem accumulatorNeverOverflows : Obligations.AccumulatorNeverOverflows := by
  intro bd
  have hk : (0 : Int) < 2 ^ (bd.wbits - 1) := by positivity
  have hmin := (wMin_lt_wMax bd.wbits_ge).1
  have hmax := (wMin_lt_wMax bd.wbits_ge).2
  refine ⟨fun w ghr hw => ⟨product_zero_mem hk hw ghr, product_mem hk hw ghr, fun h hh => ⟨fun h1 => ?_,
      fun n hn => accumulate_toInt bd.wbits_ge ghr hw hh hn, accumulate_toInt bd.wbits_ge ghr hw hh bd.accBits_ge⟩⟩,
    dot_zero,
    ⟨biasedWeights (wMin bd.wbits) (wMin bd.wbits), BitVec.allOnes 32,
      biasedWeights_mem (by omega) (by omega), dot_lowest bd.wbits_ge⟩,
    ⟨biasedWeights (wMax bd.wbits) (wMin bd.wbits), 0#32,
      biasedWeights_mem (by omega) (by omega), dot_highest bd.wbits_ge⟩⟩
  obtain ⟨h, rfl⟩ := Nat.exists_eq_add_of_le' h1
  exact dot_succ_mem hk hw ghr h

/-! ### The step, the build and the weight step -/

/-- Settles O5: the decoder reads back the word that withFetchWord places. -/
theorem stepRunsTheDecodedCommand : Obligations.StepRunsTheDecodedCommand := by
  have hcommand : ∀ (s : State) (w : CmdWord) (rest : List HostInput) (i : Instr), s.host = .command w :: rest →
      decode w = .instr i → step s = exec i (acceptCommand rest s) := fun s w rest i hs hd => by
    rw [step_command hs, runWord_instr hd]
  refine ⟨hcommand, fun s i hi => ?_⟩
  have hhost : (s.withFetchWord 64 (encode i).toNat).host = .command (encode i) :: s.host := by
    rw [State.withFetchWord, tableWord_toNat]
  exact hcommand _ _ _ i hhost (decode_encode hi)

/-- Every run of this hardware is a run of the machine that takes its build as an argument. -/
theorem core_run_eq_coreOn_run (n : Nat) (s : State) : Sys2Proof.core.run n s = (coreOn Config.build).run n s := by
  induction n generalizing s with
  | zero => rfl
  | succ n ih =>
    have hstep : Sys2Proof.core.step s = (coreOn Config.build).step s := step_eq_stepOn s
    simp only [Host.Core.run, hstep]
    cases (coreOn Config.build).step s with
    | next t => exact ih t
    | fault r => rfl
    | refused r => rfl

/-- Settles O13, by induction on the number of steps; the values are the fields of the build. -/
theorem theHardwareIsItsBuild : Obligations.TheHardwareIsItsBuild :=
  ⟨core_run_eq_coreOn_run, ⟨rfl, rfl, rfl, rfl, rfl, rfl, rfl⟩,
    fun bd => ⟨bd.gMax_le, bd.lMax_le, bd.pMax_le, bd.wbits_ge, bd.accBits_ge, bd.percHseed_lt⟩⟩

/-- A step that stays within WBITS bits is the exact sum (R205). -/
theorem weightStep_of_mem {n : Nat} {w d : Int} (hlo : wMin n ≤ w + d) (hhi : w + d ≤ wMax n) :
    weightStep n w d = w + d := by
  rw [weightStep, clipWeight, clamp, min_eq_right hhi, max_eq_right hlo]

/-- A step past the upper bound gives the bound. -/
theorem weightStep_of_gt {n : Nat} {w d : Int} (h : wMax n ≤ w + d) : weightStep n w d = wMax n := by
  have hmem := clipWeight_mem n (wMax n)
  rw [weightStep, clipWeight, clamp, min_eq_left h, max_eq_right (hmem.1.trans hmem.2)]

/-- A step past the lower bound gives the bound. -/
theorem weightStep_of_lt {n : Nat} {w d : Int} (h : w + d ≤ wMin n) : weightStep n w d = wMin n := by
  rw [weightStep, clipWeight, clamp, max_eq_left ((min_le_right _ _).trans h)]

/-- Settles O37: inside the bounds the clip does nothing, and at a bound the sum is past it. -/
theorem weightMovesByOneOrSaturates : Obligations.WeightMovesByOneOrSaturates := by
  intro n w _ (hlo : wMin n ≤ w) (hhi : w ≤ wMax n)
  refine ⟨fun (h : w < wMax n) => ?_, fun (h : w = wMax n) => ?_, fun (h : wMin n < w) => ?_,
    fun (h : w = wMin n) => ?_⟩
  · exact weightStep_of_mem (by omega) (by omega)
  · rw [weightStep_of_gt (by omega), h]
  · exact weightStep_of_mem (by omega) (by omega)
  · rw [weightStep_of_lt (by omega), h]

end Sys2Proof.Machine

/-! ## The state of the block: what reset, a command and a run leave of it, and what the host can observe of it
(10_state.md R22 to R25, R36, R38) -/

namespace Sys2Proof.Machine

/-! ### What a command answers depends on the block, and on an unconfigured block not even on that -/

/-- t follows s and v follows u by one and the same response, and R relates the blocks the two are left with. -/
def SameAnswer (R : Block → Block → Prop) (s u t v : State) : Prop :=
  ∃ st pred b c, t = respond st pred { s with block := b } ∧ v = respond st pred { u with block := c } ∧ R b c

/-- Two blocks that no input tells apart: they are equal, or neither is configured. -/
def Indistinguishable (b c : Block) : Prop := b = c ∨ b.cfgValid = false ∧ c.cfgValid = false

section TwoBlocks
variable (bd : Build) {R : Block → Block → Prop} {s u : State}

/-- A response that leaves the block alone. -/
theorem sameAnswer_respond (h : R s.block u.block) (st : Status) (pred : Outcome) :
    SameAnswer R s u (respond st pred s) (respond st pred u) :=
  ⟨st, pred, s.block, u.block, rfl, rfl, h⟩

/-- Whether INIT succeeds depends on its fields alone, and so does the block a success leaves (R122, R123). -/
theorem initCommand_sameAnswer (hrefl : ∀ b, R b b)
    (hfail : R { s.block with cfgValid := false } { u.block with cfgValid := false }) (mode : BitVec 3) (g l p : Width) :
    SameAnswer R s u (initCommand bd mode g l p s) (initCommand bd mode g l p u) := by
  have hfailed : SameAnswer R s u (configError s) (configError u) :=
    ⟨.cfgErr, .notTaken, _, _, configError_eq s, configError_eq u, hfail⟩
  unfold initCommand
  cases modeOfBits mode with
  | none => exact hfailed
  | some m =>
    cases widthsLegal bd g l p with
    | true => exact ⟨.ok, .notTaken, _, _, rfl, rfl, hrefl (configured bd m g l p)⟩
    | false => exact hfailed

/-- Equal blocks answer alike and stay equal (R25, R107). -/
theorem perform_sameAnswer (h : s.block = u.block) (i : Instr) : SameAnswer Eq s u (perform bd i s) (perform bd i u) := by
  have hinit := initCommand_sameAnswer bd (R := Eq) (s := s) (u := u) (fun _ => rfl) (by rw [h])
  cases i with
  | initStatic g l p | initGshare g l p | initTournament g l p | initPerceptron g l p | initUnknownMode _ g l p =>
    simp only [perform]; exact hinit _ g l p
  | predict pc =>
    simp only [perform, predictCommand, ← h]
    split
    · exact sameAnswer_respond h .ok _
    · exact sameAnswer_respond h .notInit .notTaken
  | train pc o =>
    simp only [perform, trainCommand, ← h]
    split
    · exact ⟨.ok, .notTaken, _, _, rfl, rfl, rfl⟩
    · exact sameAnswer_respond h .notInit .notTaken
  | reservedOp _ => exact sameAnswer_respond h .illegal .notTaken

/-- Unconfigured blocks answer alike, and a command either leaves both unconfigured or makes them equal (R126, R232). -/
theorem perform_sameAnswer_unconfigured (hs : s.block.cfgValid = false) (hu : u.block.cfgValid = false) (i : Instr) :
    SameAnswer Indistinguishable s u (perform bd i s) (perform bd i u) := by
  have hinit := initCommand_sameAnswer bd (R := Indistinguishable) (s := s) (u := u) (fun _ => .inl rfl) (.inr ⟨rfl, rfl⟩)
  have hnotInit : SameAnswer Indistinguishable s u (notInitError s) (notInitError u) :=
    sameAnswer_respond (.inr ⟨hs, hu⟩) .notInit .notTaken
  cases i with
  | initStatic g l p | initGshare g l p | initTournament g l p | initPerceptron g l p | initUnknownMode _ g l p =>
    simp only [perform]; exact hinit _ g l p
  | predict pc => simpa [perform, predictCommand, hs, hu] using hnotInit
  | train pc o => simpa [perform, trainCommand, hs, hu] using hnotInit
  | reservedOp _ => exact sameAnswer_respond (.inr ⟨hs, hu⟩) .illegal .notTaken

/-- No command tells indistinguishable blocks apart, nor leaves them apart. -/
theorem perform_sameAnswer_indistinguishable (h : Indistinguishable s.block u.block) (i : Instr) :
    SameAnswer Indistinguishable s u (perform bd i s) (perform bd i u) := by
  rcases h with heq | ⟨hs, hu⟩
  · obtain ⟨st, pred, b, c, ht, hv, hbc⟩ := perform_sameAnswer bd heq i
    exact ⟨st, pred, b, c, ht, hv, .inl hbc⟩
  · exact perform_sameAnswer_unconfigured bd hs hu i

end TwoBlocks

/-- Settles O48: the two states answer alike, and the blocks they are left with are equal. -/
theorem commandDependsOnTheBlockAlone : Obligations.CommandDependsOnTheBlockAlone := by
  intro s u i h
  obtain ⟨st, pred, b, c, ht, hv, hbc⟩ := perform_sameAnswer Config.build h i
  exact ⟨_, _, exec_eq_perform i s, exec_eq_perform i u, by rw [ht, hv]; exact hbc, by rw [ht, hv]; rfl⟩

/-! ### Two runs on the same inputs -/

/-- The outcomes x from s and y from u go on with the same new responses, to states that R relates. -/
def GoOnAlike (R : State → State → Prop) (s u : State) (x y : Host.Outcome State Fault Refusal) : Prop :=
  ∃ t v new, x = .next t ∧ y = .next v ∧ t.trace = s.trace ++ new ∧ v.trace = u.trace ++ new ∧ R t v

theorem core_run_succ {s t : State} (h : step s = .next t) (n : Nat) :
    Sys2Proof.core.run (n + 1) s = Sys2Proof.core.run n t := by
  have hcore : Sys2Proof.core.step s = .next t := h
  simp only [Host.Core.run, hcore]

/-- A relation of states that a step keeps while it answers alike is kept by runs of every length, which answer alike. -/
theorem run_goOnAlike {R : State → State → Prop} (hstep : ∀ s u, R s u → GoOnAlike R s u (step s) (step u)) (n : Nat)
    {s u : State} (h : R s u) : GoOnAlike R s u (Sys2Proof.core.run n s) (Sys2Proof.core.run n u) := by
  induction n generalizing s u with
  | zero => exact ⟨s, u, [], rfl, rfl, (List.append_nil _).symm, (List.append_nil _).symm, h⟩
  | succ n ih =>
    obtain ⟨t, v, new, hs, hu, hts, hvu, htv⟩ := hstep s u h
    obtain ⟨t', v', new', ht, hv, hts', hvu', htv'⟩ := ih htv
    exact ⟨t', v', new ++ new', (core_run_succ hs n).trans ht, (core_run_succ hu n).trans hv,
      by rw [hts', hts, List.append_assoc], by rw [hvu', hvu, List.append_assoc], htv'⟩

/-- The relation of two runs on the same inputs: the inputs to come are the same, and the blocks indistinguishable. -/
structure Twins (s u : State) : Prop where
  host : s.host = u.host
  block : Indistinguishable s.block u.block

/-- A step without a response that leaves twins. -/
theorem Twins.goOnAlike_silent {s u t v : State} (h : Twins t v) (ht : t.trace = s.trace) (hv : v.trace = u.trace) :
    GoOnAlike Twins s u (.next t) (.next v) :=
  ⟨t, v, [], rfl, rfl, by rw [ht, List.append_nil], by rw [hv, List.append_nil], h⟩

/-- Two states that answer alike, with the same inputs to come, go on alike. -/
theorem SameAnswer.goOnAlike {s u t v : State} (h : SameAnswer Indistinguishable s u t v) (hhost : s.host = u.host) :
    GoOnAlike Twins s u (.next t) (.next v) := by
  obtain ⟨st, pred, b, c, rfl, rfl, hbc⟩ := h
  exact ⟨_, _, [rspWord st pred], rfl, rfl, rfl, rfl, hhost, hbc⟩

/-- An accepted word, whether the decoder takes it or not. -/
theorem Twins.runWord_goOnAlike {s u : State} (h : Twins s u) (w : CmdWord) :
    GoOnAlike Twins s u (runWord exec w s) (runWord exec w u) := by
  cases hd : decode w with
  | instr i =>
    rw [runWord_instr hd, runWord_instr hd, exec_eq_perform, exec_eq_perform]
    exact (perform_sameAnswer_indistinguishable Config.build h.block i).goOnAlike h.host
  | illegal r =>
    rw [runWord_illegal hd, runWord_illegal hd]
    exact (sameAnswer_respond h.block .illegal .notTaken).goOnAlike h.host

/-- Twins answer every input of the host alike and stay twins: either form of rst leaves both blocks unconfigured. -/
theorem Twins.step_goOnAlike {s u : State} (h : Twins s u) : GoOnAlike Twins s u (step s) (step u) := by
  rcases hs : s.host with _ | ⟨w | _ | w, rest⟩ <;> have hu := h.host.symm.trans hs
  · rw [step_idle hs, step_idle hu]
    exact Twins.goOnAlike_silent ⟨h.host, h.block⟩ rfl rfl
  · rw [step_command hs, step_command hu]
    have haccept : Twins (acceptCommand rest s) (acceptCommand rest u) := ⟨rfl, h.block⟩
    exact haccept.runWord_goOnAlike w
  · rw [step_rst hs, step_rst hu]
    exact Twins.goOnAlike_silent ⟨rfl, .inr ⟨rfl, rfl⟩⟩ rfl rfl
  · rw [step_commandThenRst hs, step_commandThenRst hu]
    exact Twins.goOnAlike_silent ⟨rfl, .inr ⟨rfl, rfl⟩⟩ rfl rfl

/-- Settles O49: unconfigured states with the same inputs are twins, and every step keeps twins twins. -/
theorem unconfiguredContentsAreUnobservable : Obligations.UnconfiguredContentsAreUnobservable := by
  intro s u hs hu hhost n
  have htwins : Twins s u := ⟨hhost, .inr ⟨hs, hu⟩⟩
  obtain ⟨t, v, new, ht, hv, hts, hvu, -⟩ := run_goOnAlike (fun _ _ => Twins.step_goOnAlike) n htwins
  exact ⟨t, v, new, ht, hv, hts, hvu⟩

/-! ### Which commands write the block -/

/-- The two blocks hold the same configuration. -/
structure SameConfig (b c : Block) : Prop where
  cfgValid : b.cfgValid = c.cfgValid
  cfgMode : b.cfgMode = c.cfgMode
  cfgG : b.cfgG = c.cfgG
  cfgL : b.cfgL = c.cfgL
  cfgP : b.cfgP = c.cfgP

theorem SameConfig.refl (b : Block) : SameConfig b b := ⟨rfl, rfl, rfl, rfl, rfl⟩

theorem trainChoice_sameConfig (b : Block) (k : TournamentLookup) (o : Outcome) : SameConfig (trainChoice b k o) b := by
  unfold trainChoice; split
  · exact .refl b
  · exact ⟨rfl, rfl, rfl, rfl, rfl⟩

/-- TRAIN leaves the configuration, whatever the mode (R36). -/
theorem trainBlock_sameConfig (bd : Build) (b : Block) (pc : Word) (o : Outcome) :
    SameConfig (trainBlock bd b pc o) b := by
  cases hm : b.cfgMode with
  | static => rw [trainBlock_static bd pc o hm]; exact .refl b
  | gshare => rw [trainBlock_gshare bd pc o hm]; exact ⟨rfl, rfl, rfl, rfl, rfl⟩
  | tournament =>
    rw [trainBlock_tournament bd pc o hm]
    obtain ⟨hvalid, hmode, hg, hl, hp⟩ := trainChoice_sameConfig _ (tournamentLookup b pc) o
    exact ⟨hvalid, hmode, hg, hl, hp⟩
  | perceptron => rw [trainBlock_perceptron bd pc o hm]; exact ⟨rfl, rfl, rfl, rfl, rfl⟩

/-- A step on a word that decodes is the command, performed once the word is accepted. -/
theorem step_instr {s : State} {w : CmdWord} {rest : List HostInput} {i : Instr} (h : s.host = .command w :: rest)
    (hd : decode w = .instr i) : step s = .next (perform Config.build i (acceptCommand rest s)) := by
  rw [step_command h, runWord_instr hd, exec_eq_perform]

theorem step_illegal {s : State} {w : CmdWord} {rest : List HostInput} {r : IllegalReason}
    (h : s.host = .command w :: rest) (hd : decode w = .illegal r) :
    step s = .next (illegalCommand (acceptCommand rest s)) := by
  rw [step_command h, runWord_illegal hd]

/-- A command that is no INIT leaves the configuration, and all of the block unless it is a TRAIN. -/
theorem BlockAfter.frame {bd : Build} {i : Instr} {b b' : Block} (h : BlockAfter bd i b b')
    (hinit : ∀ m g l p, i ≠ initOf m g l p) (hunknown : ∀ mode g l p, i ≠ .initUnknownMode mode g l p) :
    ((∀ pc o, i ≠ .train pc o) → b' = b) ∧ SameConfig b' b := by
  cases h with
  | same => exact ⟨fun _ => rfl, .refl b⟩
  | failed h =>
    rcases h with ⟨m, g, l, p, hi⟩ | ⟨mode, g, l, p, hi⟩
    · exact absurd hi (hinit m g l p)
    · exact absurd hi (hunknown mode g l p)
  | init mode m g l p h =>
    rcases h with hi | hi
    · exact absurd hi (hinit m g l p)
    · exact absurd hi (hunknown mode g l p)
  | train pc o hi => exact ⟨fun hno => absurd hi (hno pc o), trainBlock_sameConfig bd b pc o⟩

/-- The same of a step on any word, one the decoder rejects included. -/
theorem step_frame {s t : State} {w : CmdWord} {rest : List HostInput} (hs : s.host = .command w :: rest)
    (ht : step s = .next t) (hinit : ∀ m g l p, decode w ≠ .instr (initOf m g l p))
    (hunknown : ∀ mode g l p, decode w ≠ .instr (.initUnknownMode mode g l p)) :
    ((∀ pc o, decode w ≠ .instr (.train pc o)) → t.block = s.block) ∧ SameConfig t.block s.block := by
  cases hd : decode w with
  | illegal r =>
    rw [step_illegal hs hd] at ht
    cases ht
    exact ⟨fun _ => rfl, .refl s.block⟩
  | instr i =>
    obtain ⟨st, pred, b, he, hb⟩ := perform_cases Config.build i (acceptCommand rest s)
    rw [step_instr hs hd, he] at ht
    cases ht
    simp only [hd, ne_eq, Decoded.instr.injEq] at hinit hunknown ⊢
    exact hb.frame hinit hunknown

/-- Settles O19: the four changes a command can make of the block, and the rejected words. -/
theorem onlyInitAndTrainWriteTheBlock : Obligations.OnlyInitAndTrainWriteTheBlock := by
  intro s t w rest hs ht hinit hunknown
  obtain ⟨hsame, hvalid, hmode, hg, hl, hp⟩ := step_frame hs ht hinit hunknown
  exact ⟨hsame, hvalid, hmode, hg, hl, hp⟩

/-! ### CFG_VALID -/

theorem decodeInit_wellFormed (mode : BitVec 3) (g l p : Width) : (decodeInit mode g l p).wellFormed = true := by
  cases hm : modeOfBits mode with
  | none =>
    have hmode := (modeOfBits_eq_none_iff mode).1 hm
    rw [decodeInit_unknown hmode]
    exact decide_eq_true hmode
  | some m => rw [modeBits_of_modeOfBits hm, decodeInit_modeBits]; cases m <;> rfl

/-- What the decoder answers is well formed: only format I has a field that not every value is legal in. -/
theorem decode_wellFormed {w : CmdWord} {i : Instr} (h : decode w = .instr i) : i.wellFormed = true := by
  obtain ⟨hinitRsvd, hinit, hpredictRsvd, hpredict, htrainRsvd, htrain, hreserved⟩ := decode_cases w
  have hop : w.toNat % 4 = 0 ∨ w.toNat % 4 = 1 ∨ w.toNat % 4 = 2 ∨ w.toNat % 4 = 3 := by omega
  rcases hop with hop | hop | hop | hop
  · by_cases hrsvd : w.toNat / 2 ^ 23 = 0
    · rw [hinit hop hrsvd] at h; cases h; exact decodeInit_wellFormed _ _ _ _
    · rw [hinitRsvd hop hrsvd] at h; cases h
  · by_cases hrsvd : w.toNat / 4 % 2 ^ 30 = 0
    · rw [hpredict hop hrsvd] at h; cases h; rfl
    · rw [hpredictRsvd hop hrsvd] at h; cases h
  · by_cases hrsvd : w.toNat / 8 % 2 ^ 29 = 0
    · rw [htrain hop hrsvd] at h; cases h; rfl
    · rw [htrainRsvd hop hrsvd] at h; cases h
  · rw [hreserved hop] at h; cases h; rfl

theorem initCommand_unknown_cfgValid (bd : Build) {mode : BitVec 3} (h : 4 ≤ mode.toNat) (g l p : Width) (s : State) :
    (initCommand bd mode g l p s).block.cfgValid = false := by
  rw [Bool.eq_false_iff, ne_eq, initCommand_cfgValid_iff]
  omega

theorem initCommand_known_cfgValid (m : Mode) (g l p : Width) (s : State) :
    (initCommand Config.build (modeBits m) g l p s).block.cfgValid = true ↔
      g.toNat ≤ 32 ∧ l.toNat ≤ 32 ∧ p.toNat ≤ 32 := by
  rw [initCommand_cfgValid_iff]
  exact and_iff_right (modeOfBits_some_le (modeOfBits_modeBits m))

/-- Settles O18, by what the step is: a reset, an INIT, a word that is none, a refused PREDICT or TRAIN. -/
theorem cfgValidFollowsTheLastInit : Obligations.CfgValidFollowsTheLastInit := by
  refine ⟨rfl, fun s t w rest hs ht => ?_, fun s t w rest hs ht => ⟨fun m g l p hd => ?_, fun mode g l p hd => ?_,
    fun hinit hunknown => (step_frame hs ht hinit hunknown).2.cfgValid, fun pc hd hv => ?_, fun pc o hd hv => ?_⟩⟩
  · rcases hs with hs | hs
    · rw [step_rst hs] at ht; cases ht; rfl
    · rw [step_commandThenRst hs] at ht; cases ht; rfl
  · rw [step_instr hs hd, perform_initOf] at ht
    cases ht
    exact initCommand_known_cfgValid m g l p _
  · rw [step_instr hs hd] at ht
    cases ht
    exact initCommand_unknown_cfgValid _ (of_decide_eq_true (decode_wellFormed hd)) g l p _
  · rw [step_command hs, runWord_instr hd, exec_predict_unconfigured (s := acceptCommand rest s) hv] at ht
    cases ht; rfl
  · rw [step_command hs, runWord_instr hd, exec_train_unconfigured (s := acceptCommand rest s) hv] at ht
    cases ht; rfl

/-! ### Reset -/

/-- Settles O12: rst clears the registers, and free tables are canonical. -/
theorem hardwareResetClearsTheRegisters : Obligations.HardwareResetClearsTheRegisters :=
  ⟨fun _ _ hs => ⟨_, step_rst hs, rfl, rfl, rfl, rfl, rfl, rfl⟩,
    fun s _ _ hs => ⟨_, step_commandThenRst hs, rfl, rfl, rfl, rfl, rfl, rfl,
      memory_wf_resetRegisters (memory_wf_freeTables Config.build s.freeCount s.block), rfl, rfl, rfl, rfl⟩⟩

/-- The block at reset is a configured block of zero widths whose registers were reset (R260; the tables: log 4). -/
theorem reset_block_eq (bd : Build) : State.reset.block = resetRegisters (configured bd .static 0#6 0#6 0#6) := rfl

/-- Settles O44: both INIT and the reset of the registers give the invariant. -/
theorem resetMeetsTheInvariant : Obligations.ResetMeetsTheInvariant := by
  intro bd
  have hlegal : widthsLegal bd 0#6 0#6 0#6 = true :=
    (widthsLegal_iff bd 0#6 0#6 0#6).2 ⟨Nat.zero_le _, Nat.zero_le _, Nat.zero_le _⟩
  rw [reset_block_eq bd]
  exact (inv_configured .static hlegal).resetRegisters

end Sys2Proof.Machine

/-! ## The memory of the block: the indices of its tables -/

namespace Sys2Proof.Machine

/-- Settles O45: on a configured block the live part of a table is its active part, and the widths are legal. -/
theorem everyIndexIsInRange : Obligations.EveryIndexIsInRange := by
  intro bd b pc h hv
  have hlive := liveWidth_configured hv
  have hgshare := h.gshareIndex_live hv pc
  have hpc := h.pcIndex_live hv pc
  have hlocal := h.lhtMasked (pcIndex b pc)
  have hghr := h.ghr_live hv
  rw [hlive] at hgshare hpc hlocal hghr
  have hbuilt : ∀ {cfg built : Nat}, cfg ≤ built → 2 ^ cfg ≤ 2 ^ built := Nat.pow_le_pow_right two_pos
  exact ⟨⟨hgshare, hpc, hlocal, hghr⟩, hbuilt h.gLegal, hbuilt h.lLegal, hbuilt h.pLegal⟩

end Sys2Proof.Machine

/-! ## The encoding: the opcode map, the words of commands, their responses, and the assembler (R80 to R93) -/

namespace Sys2Proof.Machine

/-! ### The decoder, turned round: which words it reads a command from -/

/-- Settles O1: the round trip of every constructor, which the step of a placed word needs too. -/
theorem decodeOfEncode : Obligations.DecodeOfEncode := fun _ => decode_encode

/-- The words the decoder reads a command from, by format: RSVD is 0, and the command is made of the fields. -/
theorem instr_cases_of_decode {w : CmdWord} {i : Instr} (h : decode w = .instr i) :
    (w.toNat % 4 = 0 ∧ w.toNat / 2 ^ 23 = 0 ∧ i = decodeInit (BitVec.ofNat 3 (w.toNat / 4))
      (BitVec.ofNat 6 (w.toNat / 2 ^ 5)) (BitVec.ofNat 6 (w.toNat / 2 ^ 11)) (BitVec.ofNat 6 (w.toNat / 2 ^ 17))) ∨
    (w.toNat % 4 = 1 ∧ w.toNat / 4 % 2 ^ 30 = 0 ∧ i = .predict (BitVec.ofNat 32 (w.toNat / 2 ^ 32))) ∨
    (w.toNat % 4 = 2 ∧ w.toNat / 8 % 2 ^ 29 = 0 ∧
      i = .train (BitVec.ofNat 32 (w.toNat / 2 ^ 32)) (outcomeOfBit (BitVec.ofNat 1 (w.toNat / 4)))) ∨
    (w.toNat % 4 = 3 ∧ i = .reservedOp (BitVec.ofNat 62 (w.toNat / 4))) := by
  obtain ⟨hinitRsvd, hinit, hpredictRsvd, hpredict, htrainRsvd, htrain, hreserved⟩ := decode_cases w
  have hop : w.toNat % 4 = 0 ∨ w.toNat % 4 = 1 ∨ w.toNat % 4 = 2 ∨ w.toNat % 4 = 3 := by omega
  rcases hop with hop | hop | hop | hop
  · by_cases hrsvd : w.toNat / 2 ^ 23 = 0
    · rw [hinit hop hrsvd] at h; cases h; exact .inl ⟨hop, hrsvd, rfl⟩
    · rw [hinitRsvd hop hrsvd] at h; cases h
  · by_cases hrsvd : w.toNat / 4 % 2 ^ 30 = 0
    · rw [hpredict hop hrsvd] at h; cases h; exact .inr (.inl ⟨hop, hrsvd, rfl⟩)
    · rw [hpredictRsvd hop hrsvd] at h; cases h
  · by_cases hrsvd : w.toNat / 8 % 2 ^ 29 = 0
    · rw [htrain hop hrsvd] at h; cases h; exact .inr (.inr (.inl ⟨hop, hrsvd, rfl⟩))
    · rw [htrainRsvd hop hrsvd] at h; cases h
  · rw [hreserved hop] at h; cases h; exact .inr (.inr (.inr ⟨hop, rfl⟩))

/-- The words the decoder rejects, by format: a 1 in RSVD. -/
theorem reserved_of_decode_illegal {w : CmdWord} {x : IllegalReason} (h : decode w = .illegal x) :
    (w.toNat % 4 = 0 ∧ w.toNat / 2 ^ 23 ≠ 0) ∨ (w.toNat % 4 = 1 ∧ w.toNat / 4 % 2 ^ 30 ≠ 0) ∨
    (w.toNat % 4 = 2 ∧ w.toNat / 8 % 2 ^ 29 ≠ 0) := by
  obtain ⟨-, hinit, -, hpredict, -, htrain, hreserved⟩ := decode_cases w
  by_contra hno
  have hop : (w.toNat % 4 = 0 ∧ w.toNat / 2 ^ 23 = 0) ∨ (w.toNat % 4 = 1 ∧ w.toNat / 4 % 2 ^ 30 = 0) ∨
    (w.toNat % 4 = 2 ∧ w.toNat / 8 % 2 ^ 29 = 0) ∨ w.toNat % 4 = 3 := by omega
  rcases hop with ⟨hop, hrsvd⟩ | ⟨hop, hrsvd⟩ | ⟨hop, hrsvd⟩ | hop
  · rw [hinit hop hrsvd] at h; cases h
  · rw [hpredict hop hrsvd] at h; cases h
  · rw [htrain hop hrsvd] at h; cases h
  · rw [hreserved hop] at h; cases h

/-- Whatever row MODE selects, the command's word is the format I word of its fields (R82). -/
theorem encode_decodeInit (mode : BitVec 3) (g l p : Width) :
    encode (decodeInit mode g l p) = encodeInit mode g l p := by
  cases hm : modeOfBits mode with
  | none => rw [decodeInit_unknown ((modeOfBits_eq_none_iff mode).1 hm)]; rfl
  | some m => rw [modeBits_of_modeOfBits hm, decodeInit_modeBits]; cases m <;> rfl

theorem outcomeBit_outcomeOfBit (b : BitVec 1) : outcomeBit (outcomeOfBit b) = b := by revert b; decide

/-- A command read from a word has that word: the fields and the zeros of RSVD are all its bits. -/
theorem encode_of_decode {w : CmdWord} {i : Instr} (h : decode w = .instr i) : encode i = w := by
  have hlt := w.isLt
  apply BitVec.eq_of_toNat_eq
  rcases instr_cases_of_decode h with ⟨hop, hrsvd, rfl⟩ | ⟨hop, hrsvd, rfl⟩ | ⟨hop, hrsvd, rfl⟩ | ⟨hop, rfl⟩
  · rw [encode_decodeInit, encodeInit_toNat]; simp only [BitVec.toNat_ofNat]; omega
  · rw [encode_predict_toNat, BitVec.toNat_ofNat]; omega
  · rw [encode_train_toNat, outcomeBit_outcomeOfBit, BitVec.toNat_ofNat, BitVec.toNat_ofNat]; omega
  · rw [encode_reservedOp_toNat, BitVec.toNat_ofNat]; omega

/-- Settles O2, by the formats of the words that decode. -/
theorem encodeOfDecode : Obligations.EncodeOfDecode := fun _ _ h => ⟨decode_wellFormed h, encode_of_decode h⟩

/-! ### The rows of the opcode map, in numbers -/

/-- A mask whose low k bits are 1 keeps the low k bits. -/
theorem and_low_ones_iff (k n m v : Nat) :
    n &&& (m * 2 ^ k + (2 ^ k - 1)) = v ↔ n % 2 ^ k = v % 2 ^ k ∧ n / 2 ^ k &&& m = v / 2 ^ k := by
  have hpos := Nat.two_pow_pos k
  have hmod : (m * 2 ^ k + (2 ^ k - 1)) % 2 ^ k = 2 ^ k - 1 := by
    rw [Nat.mul_add_mod_self_right, Nat.mod_eq_of_lt (by omega)]
  have hdiv : (m * 2 ^ k + (2 ^ k - 1)) / 2 ^ k = m := by
    rw [Nat.mul_comm, Nat.mul_add_div hpos, Nat.div_eq_of_lt (by omega), Nat.add_zero]
  rw [Nat.ext_div_mod_iff (2 ^ k), and_comm, Nat.and_mod_two_pow, Nat.and_div_two_pow, hmod, hdiv,
    Nat.and_two_pow_sub_one_eq_mod, Nat.mod_mod]

/-- A mask whose low k bits are 0 clears the low k bits. -/
theorem and_low_zeros_iff (k n m v : Nat) :
    n &&& (m * 2 ^ k) = v ↔ v % 2 ^ k = 0 ∧ n / 2 ^ k &&& m = v / 2 ^ k := by
  rw [Nat.ext_div_mod_iff (2 ^ k), and_comm, Nat.and_mod_two_pow, Nat.and_div_two_pow, Nat.mul_mod_left,
    Nat.mul_div_cancel _ (Nat.two_pow_pos k), Nat.and_zero, eq_comm]

/-- The rows whose MODE is known: their mask is RSVD, MODE and OP. -/
theorem and_knownModeMask_iff {n v : Nat} (hn : n < 2 ^ 64) (hv : v < 32) :
    n &&& 0xFFFFFFFFFF80001F = v ↔ n % 32 = v ∧ n / 2 ^ 23 = 0 := by
  rw [show (0xFFFFFFFFFF80001F : Nat) = (2 ^ 41 - 1) * 2 ^ 18 * 2 ^ 5 + (2 ^ 5 - 1) by norm_num, and_low_ones_iff,
    and_low_zeros_iff, Nat.and_two_pow_sub_one_eq_mod]
  omega

/-- The row of the unknown MODE: of MODE its mask has the top bit only. -/
theorem and_unknownModeMask_iff {n : Nat} (hn : n < 2 ^ 64) :
    n &&& 0xFFFFFFFFFF800013 = 0x10 ↔ n % 4 = 0 ∧ n / 16 % 2 = 1 ∧ n / 2 ^ 23 = 0 := by
  rw [show (0xFFFFFFFFFF800013 : Nat) = (((2 ^ 41 - 1) * 2 ^ 18 * 2 ^ 1 + (2 ^ 1 - 1)) * 2 ^ 2) * 2 ^ 2 + (2 ^ 2 - 1) by
    norm_num, and_low_ones_iff, and_low_zeros_iff, and_low_ones_iff, and_low_zeros_iff, Nat.and_two_pow_sub_one_eq_mod]
  omega

theorem and_predictMask_iff (n : Nat) : n &&& 0xFFFFFFFF = 1 ↔ n % 4 = 1 ∧ n / 4 % 2 ^ 30 = 0 := by
  rw [show (0xFFFFFFFF : Nat) = 2 ^ 32 - 1 by norm_num, Nat.and_two_pow_sub_one_eq_mod]
  omega

theorem and_trainMask_iff (n : Nat) : n &&& 0xFFFFFFFB = 2 ↔ n % 4 = 2 ∧ n / 8 % 2 ^ 29 = 0 := by
  rw [show (0xFFFFFFFB : Nat) = (2 ^ 29 - 1) * 2 ^ 1 * 2 ^ 2 + (2 ^ 2 - 1) by norm_num, and_low_ones_iff,
    and_low_zeros_iff, Nat.and_two_pow_sub_one_eq_mod]
  omega

theorem and_opMask_iff (n : Nat) : n &&& 3 = 3 ↔ n % 4 = 3 :=
  iff_of_eq (congrArg (· = 3) (Nat.and_two_pow_sub_one_eq_mod n 2))

theorem contains_iff_toNat (r : OpcodeRow) (w : CmdWord) :
    r.contains w = true ↔ w.toNat &&& r.mask.toNat = r.value.toNat := by
  rw [OpcodeRow.contains, decide_eq_true_eq, ← BitVec.toNat_inj, BitVec.toNat_and]

/-- The number n of a word is in row k of the opcode map: RSVD is 0, OP gives the row, and for INIT MODE gives it (R90). -/
def InOpcodeRow (n k : Nat) : Prop :=
  (n % 4 = 0 ∧ n / 2 ^ 23 = 0 ∧ k = min (n / 4 % 8) 4) ∨ (n % 4 = 1 ∧ n / 4 % 2 ^ 30 = 0 ∧ k = 5) ∨
  (n % 4 = 2 ∧ n / 8 % 2 ^ 29 = 0 ∧ k = 6) ∨ (n % 4 = 3 ∧ k = 7)

/-- The match and mask pairs say what `InOpcodeRow` says. -/
theorem contains_iff_inOpcodeRow {k : Nat} {r : OpcodeRow} (h : opcodeRows[k]? = some r) (w : CmdWord) :
    r.contains w = true ↔ InOpcodeRow w.toNat k := by
  have hlt := w.isLt
  rw [contains_iff_toNat, InOpcodeRow]
  rcases k with _ | _ | _ | _ | _ | _ | _ | _ | k <;> cases h
  · exact (and_knownModeMask_iff hlt (v := 0) (by norm_num)).trans (by omega)
  · exact (and_knownModeMask_iff hlt (v := 4) (by norm_num)).trans (by omega)
  · exact (and_knownModeMask_iff hlt (v := 8) (by norm_num)).trans (by omega)
  · exact (and_knownModeMask_iff hlt (v := 12) (by norm_num)).trans (by omega)
  · exact (and_unknownModeMask_iff hlt).trans (by omega)
  · exact (and_predictMask_iff _).trans (by omega)
  · exact (and_trainMask_iff _).trans (by omega)
  · exact (and_opMask_iff _).trans (by omega)

/-- MODE selects the INIT row: 0..3 the row of that number, 4..7 the fifth. -/
theorem rowIndex_decodeInit (mode : BitVec 3) (g l p : Width) :
    rowIndex (decodeInit mode g l p) = min mode.toNat 4 := by
  cases hm : modeOfBits mode with
  | none =>
    have hmode := (modeOfBits_eq_none_iff mode).1 hm
    rw [decodeInit_unknown hmode, Nat.min_eq_right hmode]; rfl
  | some m => rw [modeBits_of_modeOfBits hm, decodeInit_modeBits]; cases m <;> rfl

/-- A word that decodes is in its command's row and in no other. -/
theorem inOpcodeRow_iff_of_decode {w : CmdWord} {i : Instr} (h : decode w = .instr i) (k : Nat) :
    InOpcodeRow w.toNat k ↔ k = rowIndex i := by
  rw [InOpcodeRow]
  rcases instr_cases_of_decode h with ⟨hop, hrsvd, rfl⟩ | ⟨hop, hrsvd, rfl⟩ | ⟨hop, hrsvd, rfl⟩ | ⟨hop, rfl⟩
  · rw [rowIndex_decodeInit, BitVec.toNat_ofNat]; omega
  · rw [rowIndex]; omega
  · rw [rowIndex]; omega
  · rw [rowIndex]; omega

/-- A word that the decoder rejects is in no row. -/
theorem not_inOpcodeRow_of_decode_illegal {w : CmdWord} {x : IllegalReason} (h : decode w = .illegal x) (k : Nat) :
    ¬ InOpcodeRow w.toNat k := by
  have hreserved := reserved_of_decode_illegal h
  rw [InOpcodeRow]; omega

theorem decode_eq_initOf {w : CmdWord} (m : Mode) (hop : w.toNat % 4 = 0) (hrsvd : w.toNat / 2 ^ 23 = 0)
    (hmode : w.toNat / 4 % 8 = (modeBits m).toNat) : decode w = .instr (initOf m (BitVec.ofNat 6 (w.toNat / 2 ^ 5))
      (BitVec.ofNat 6 (w.toNat / 2 ^ 11)) (BitVec.ofNat 6 (w.toNat / 2 ^ 17))) := by
  obtain ⟨-, hinit, -⟩ := decode_cases w
  rw [hinit hop hrsvd, ← eq_ofNat_of_toNat (x := modeBits m) hmode.symm, decodeInit_modeBits]

theorem decode_eq_initUnknownMode {w : CmdWord} (hop : w.toNat % 4 = 0) (hrsvd : w.toNat / 2 ^ 23 = 0)
    (hmode : 4 ≤ w.toNat / 4 % 8) : decode w = .instr (.initUnknownMode (BitVec.ofNat 3 (w.toNat / 4))
      (BitVec.ofNat 6 (w.toNat / 2 ^ 5)) (BitVec.ofNat 6 (w.toNat / 2 ^ 11)) (BitVec.ofNat 6 (w.toNat / 2 ^ 17))) := by
  obtain ⟨-, hinit, -⟩ := decode_cases w
  rw [hinit hop hrsvd, decodeInit_unknown (by rwa [BitVec.toNat_ofNat])]

theorem decode_eq_train {w : CmdWord} (o : Outcome) (hop : w.toNat % 4 = 2) (hrsvd : w.toNat / 8 % 2 ^ 29 = 0)
    (hout : w.toNat / 4 % 2 = (outcomeBit o).toNat) :
    decode w = .instr (.train (BitVec.ofNat 32 (w.toNat / 2 ^ 32)) o) := by
  obtain ⟨-, -, -, -, -, htrain, -⟩ := decode_cases w
  rw [htrain hop hrsvd, ← eq_ofNat_of_toNat (x := outcomeBit o) hout.symm, outcomeOfBit_outcomeBit]

/-- Settles O3: the decoder's cases, and the rows by the numbers of the words that decode. -/
theorem decoderIsTheOpcodeMap : Obligations.DecoderIsTheOpcodeMap := by
  intro w
  obtain ⟨hinitRsvd, -, hpredictRsvd, hpredict, htrainRsvd, -, hreserved⟩ := decode_cases w
  refine ⟨fun hop hrsvd => ⟨_, hinitRsvd hop hrsvd⟩, decode_eq_initOf .static, decode_eq_initOf .gshare,
    decode_eq_initOf .tournament, decode_eq_initOf .perceptron, decode_eq_initUnknownMode,
    fun hop hrsvd => ⟨_, hpredictRsvd hop hrsvd⟩, hpredict, fun hop hrsvd => ⟨_, htrainRsvd hop hrsvd⟩,
    decode_eq_train .notTaken, decode_eq_train .taken, hreserved, fun i hi k r hr => ?_, fun x hx r hr => ?_⟩
  · rw [contains_iff_inOpcodeRow hr, inOpcodeRow_iff_of_decode hi]
  · obtain ⟨k, hk⟩ := List.mem_iff_getElem?.1 hr
    rw [Bool.eq_false_iff, ne_eq, contains_iff_inOpcodeRow hk]
    exact not_inOpcodeRow_of_decode_illegal hx k

/-- Settles O4, by running the decoder on the ten words. -/
theorem encodingExamples : Obligations.EncodingExamples := by
  unfold Obligations.EncodingExamples; decide

/-! ### The responses -/

/-- Only a PREDICT answers with PRED = 1, and then its STATUS is OK (R88). -/
theorem perform_response (bd : Build) (i : Instr) (s : State) : ∃ st pred b,
    perform bd i s = respond st pred { s with block := b } ∧ (pred = .taken → st = .ok ∧ ∃ pc, i = .predict pc) := by
  have hinit : ∀ (mode : BitVec 3) (g l p : Width), ∃ st pred b, initCommand bd mode g l p s =
      respond st pred { s with block := b } ∧ (pred = .taken → st = .ok ∧ ∃ pc, i = .predict pc) := fun mode g l p => by
    rcases initCommand_cases bd mode g l p s with ⟨m, -, -, he⟩ | ⟨-, he⟩
    · exact ⟨_, .notTaken, _, he, nofun⟩
    · exact ⟨_, .notTaken, _, he, nofun⟩
  cases i with
  | initStatic g l p | initGshare g l p | initTournament g l p | initPerceptron g l p | initUnknownMode _ g l p =>
    simp only [perform]; exact hinit _ g l p
  | predict pc =>
    simp only [perform, predictCommand]
    split
    · exact ⟨.ok, _, s.block, rfl, fun _ => ⟨rfl, pc, rfl⟩⟩
    · exact ⟨.notInit, .notTaken, s.block, rfl, nofun⟩
  | train pc o =>
    simp only [perform, trainCommand]
    split
    · exact ⟨.ok, .notTaken, _, rfl, nofun⟩
    · exact ⟨.notInit, .notTaken, s.block, rfl, nofun⟩
  | reservedOp _ => exact ⟨.illegal, .notTaken, s.block, rfl, nofun⟩

theorem rspWord_getLsbD_zero (st : Status) (pred : Outcome) :
    (rspWord st pred).getLsbD 0 = true ↔ pred = .taken := by cases st <;> cases pred <;> decide

/-- The STATUS of a response word. -/
theorem rspWord_toNat_div_two (st : Status) (pred : Outcome) :
    (rspWord st pred).toNat / 2 = (statusBits st).toNat := by cases st <;> cases pred <;> rfl

/-- Settles O9: a rejected word is answered with PRED = 0, a decoded one by its command. -/
theorem oneResponsePerCommand : Obligations.OneResponsePerCommand := by
  intro s w rest hs
  cases hd : decode w with
  | illegal x =>
    exact ⟨_, _, step_illegal hs hd, rfl, rfl, rfl, rfl, fun hpred =>
      absurd ((rspWord_getLsbD_zero _ _).1 hpred) nofun⟩
  | instr i =>
    obtain ⟨st, pred, b, he, hpredict⟩ := perform_response Config.build i (acceptCommand rest s)
    refine ⟨_, rspWord st pred, (step_instr hs hd).trans (congrArg _ he), rfl, rfl, rfl, rfl, fun hpred => ?_⟩
    obtain ⟨rfl, pc, rfl⟩ := hpredict ((rspWord_getLsbD_zero st pred).1 hpred)
    exact ⟨rspWord_toNat_div_two .ok pred, pc, rfl⟩

/-- Settles O8: the command is one ILLEGAL response. -/
theorem reservedCommandWritesNothing : Obligations.ReservedCommandWritesNothing :=
  fun s rest => ⟨_, exec_eq_perform (.reservedOp rest) s, rfl, answers_respond s s.block .illegal .notTaken⟩

/-- INIT fails on an unknown mode and on an illegal width, whatever else its fields hold (R122). -/
theorem initCommand_eq_configError {bd : Build} {mode : BitVec 3} {g l p : Width}
    (h : modeOfBits mode = none ∨ widthsLegal bd g l p = false) (s : State) :
    initCommand bd mode g l p s = configError s := by
  rcases initCommand_cases bd mode g l p s with ⟨m, hm, hw, -⟩ | ⟨-, he⟩
  · rcases h with hnone | hillegal
    · rw [hm] at hnone; cases hnone
    · rw [hw] at hillegal; cases hillegal
  · exact he

/-- Settles O15: both failures are the one operation CFG_ERR. -/
theorem failedInitOnlyUnconfigures : Obligations.FailedInitOnlyUnconfigures := by
  refine ⟨fun s m g l p hwidth => ⟨configError s, ?_, rfl, answers_respond s _ .cfgErr .notTaken⟩,
    fun s mode g l p hmode => ⟨configError s, ?_, rfl, answers_respond s _ .cfgErr .notTaken⟩⟩
  · have hillegal : widthsLegal Config.build g l p = false := by
      rw [Bool.eq_false_iff, ne_eq, widthsLegal_build]; omega
    rw [exec_initOf, initCommand_eq_configError (.inr hillegal)]
  · have hunknown := (modeOfBits_eq_none_iff mode).2 hmode
    exact congrArg Host.Outcome.next (initCommand_eq_configError (.inl hunknown) s)

/-! ### The assembler -/

theorem asmField_eq_some_iff {w n : Nat} {x : BitVec w} : asmField w n = some x ↔ n < 2 ^ w ∧ BitVec.ofNat w n = x := by
  rw [asmField, Option.ite_none_right_eq_some, Option.some.injEq]

/-- A line with one number assembles when the number fits. -/
theorem exists_asmField_bind_iff {w n : Nat} (f : BitVec w → List CmdWord) :
    (∃ ws, (do let x ← asmField w n; some (f x)) = some ws) ↔ n < 2 ^ w := by
  simp [bind, Option.bind_eq_some_iff, asmField_eq_some_iff]

/-- What a line with one number assembles to is made of that number's field. -/
theorem exists_of_asmField_bind {w n : Nat} {f : BitVec w → List CmdWord} {ws : List CmdWord}
    (h : (do let x ← asmField w n; some (f x)) = some ws) : ∃ x, f x = ws := by
  obtain ⟨x, -, hx⟩ := Option.bind_eq_some_iff.1 h
  exact ⟨x, Option.some.inj hx⟩

/-- The words a line other than `.word64` gives: INIT words of a known mode, PREDICT words and TRAIN words. -/
inductive AsmWord : CmdWord → Prop
  | init (m : Mode) (g l p : Width) : AsmWord (encodeInit (modeBits m) g l p)
  | predict (pc : Word) : AsmWord (encode (.predict pc))
  | train (pc : Word) (o : Outcome) : AsmWord (encode (.train pc o))

theorem asmWord_of_assemble {a : AsmLine} {ws : List CmdWord} (h : assemble a = some ws) (ha : ∀ v, a ≠ .word64 v) :
    ∀ w ∈ ws, AsmWord w := by
  cases a with
  | init m g l p =>
    obtain ⟨g', -, h⟩ := Option.bind_eq_some_iff.1 h
    obtain ⟨l', -, h⟩ := Option.bind_eq_some_iff.1 h
    obtain ⟨p', rfl⟩ := exists_of_asmField_bind h
    simpa using AsmWord.init m g' l' p'
  | predict pc =>
    obtain ⟨pc', rfl⟩ := exists_of_asmField_bind h
    simpa using AsmWord.predict pc'
  | train pc o =>
    obtain ⟨pc', rfl⟩ := exists_of_asmField_bind h
    simpa using AsmWord.train pc' o
  | word64 v => exact absurd rfl (ha v)
  | branch pc o =>
    obtain ⟨pc', rfl⟩ := exists_of_asmField_bind h
    simpa using And.intro (AsmWord.predict pc') (AsmWord.train pc' o)

/-- None of those words is reserved or has an unknown MODE. -/
theorem AsmWord.decode_known {w : CmdWord} (h : AsmWord w) : ∃ i, decode w = .instr i ∧
    (∀ rest, i ≠ .reservedOp rest) ∧ ∀ mode g l p, i ≠ .initUnknownMode mode g l p := by
  cases h with
  | init m g l p =>
    refine ⟨initOf m g l p, by rw [decode_encodeInit, decodeInit_modeBits], ?_, ?_⟩ <;> cases m <;> exact nofun
  | predict pc => exact ⟨_, decode_encode rfl, nofun, nofun⟩
  | train pc o => exact ⟨_, decode_encode rfl, nofun, nofun⟩

theorem asmWidth_fits_iff (g : Option Nat) : g.getD 0 < 2 ^ 6 ↔ ∀ n, g = some n → n < 64 := by
  cases g <;> simp

theorem exists_assemble_init_iff (m : Mode) (g l p : Option Nat) : (∃ ws, assemble (.init m g l p) = some ws) ↔
    g.getD 0 < 2 ^ 6 ∧ l.getD 0 < 2 ^ 6 ∧ p.getD 0 < 2 ^ 6 := by
  simp [assemble, bind, Option.bind_eq_some_iff, asmField_eq_some_iff]

/-- Settles O51: every word of the other lines is of a known command, and a line is refused by its fields alone. -/
theorem onlyWord64WritesReservedWords : Obligations.OnlyWord64WritesReservedWords := by
  refine ⟨fun a ws h ha w hw => (asmWord_of_assemble h ha w hw).decode_known, fun m g l p => ?_,
    fun pc => exists_asmField_bind_iff _, fun pc o => exists_asmField_bind_iff _,
    fun pc o => exists_asmField_bind_iff _, fun v => exists_asmField_bind_iff _⟩
  rw [exists_assemble_init_iff, asmWidth_fits_iff, asmWidth_fits_iff, asmWidth_fits_iff]

/-- Settles O52: the two commands read the same pc, so they are refused together. -/
theorem branchExpandsToPredictThenTrain : Obligations.BranchExpandsToPredictThenTrain := by
  intro pc o
  cases hpc : asmField 32 pc with
  | none => simp [assemble, hpc]
  | some pc' => simp [assemble, hpc]

end Sys2Proof.Machine

/-! ## The shared state machines, and the replay of a configured block (R100 to R107, R123, R242) -/

namespace Sys2Proof.Machine

/-! ### Two runs on the same commands, from equal blocks -/

/-- The relation of two instances under replay: equal blocks, and the same commands to come, with no rst among them. -/
structure Replaying (s u : State) : Prop where
  block : s.block = u.block
  host : u.host = s.host
  commands : ∃ ws : List CmdWord, s.host = ws.map .command

/-- Two states that answer alike and are left with equal blocks go on as replays, when only commands are to come. -/
theorem SameAnswer.goOnAlike_replaying {s u t v : State} (h : SameAnswer Eq s u t v) (hhost : u.host = s.host)
    {ws : List CmdWord} (hws : s.host = ws.map .command) : GoOnAlike Replaying s u (.next t) (.next v) := by
  obtain ⟨st, pred, b, c, rfl, rfl, hbc⟩ := h
  exact ⟨_, _, [rspWord st pred], rfl, rfl, rfl, rfl, hbc, hhost, ws, hws⟩

/-- Replays answer every command alike and stay replays (R107). -/
theorem Replaying.step_goOnAlike {s u : State} (h : Replaying s u) : GoOnAlike Replaying s u (step s) (step u) := by
  obtain ⟨hblock, hhost, ws, hs⟩ := h
  have hu := hhost.trans hs
  cases ws with
  | nil =>
    rw [step_idle hs, step_idle hu]
    exact ⟨_, _, [], rfl, rfl, (List.append_nil _).symm, (List.append_nil _).symm, hblock, hhost, [], hs⟩
  | cons w ws =>
    rw [List.map_cons] at hs hu
    cases hd : decode w with
    | instr i =>
      rw [step_instr hs hd, step_instr hu hd]
      exact (perform_sameAnswer Config.build (s := acceptCommand _ s) (u := acceptCommand _ u) hblock i).goOnAlike_replaying
        rfl rfl
    | illegal r =>
      rw [step_illegal hs hd, step_illegal hu hd]
      exact (sameAnswer_respond (s := acceptCommand _ s) (u := acceptCommand _ u) hblock .illegal
        .notTaken).goOnAlike_replaying rfl rfl

/-- A successful INIT makes replays of any two instances: it leaves nothing of either block (R123, R242). -/
theorem step_init_goOnAlike {s u : State} {m : Mode} {g l p : Width} {ws : List CmdWord}
    (hwidths : widthsLegal Config.build g l p = true)
    (hs : s.host = .command (encode (initOf m g l p)) :: ws.map .command) (hu : u.host = s.host) :
    GoOnAlike Replaying s u (step s) (step u) := by
  have hd : decode (encode (initOf m g l p)) = .instr (initOf m g l p) := decode_encode (by cases m <;> rfl)
  have hstep : ∀ {x : State}, x.host = .command (encode (initOf m g l p)) :: ws.map .command →
      step x = .next (respond .ok .notTaken
        { acceptCommand (ws.map .command) x with block := configured Config.build m g l p }) := by
    intro x hx
    rw [step_instr hx hd, perform_initOf, initCommand_legal m hwidths]
  have hanswer : SameAnswer Eq (acceptCommand (ws.map .command) s) (acceptCommand (ws.map .command) u) _ _ :=
    ⟨.ok, .notTaken, configured Config.build m g l p, _, rfl, rfl, rfl⟩
  rw [hstep hs, hstep (hu.trans hs)]
  exact hanswer.goOnAlike_replaying rfl rfl

/-- A first step that leaves related states, and then any number of steps that keep the relation. -/
theorem run_succ_goOnAlike {R : State → State → Prop} (hstep : ∀ s u, R s u → GoOnAlike R s u (step s) (step u))
    {s u : State} (hfirst : GoOnAlike R s u (step s) (step u)) (n : Nat) :
    GoOnAlike R s u (Sys2Proof.core.run (n + 1) s) (Sys2Proof.core.run (n + 1) u) := by
  obtain ⟨t, v, new, hs, hu, hts, hvu, htv⟩ := hfirst
  obtain ⟨t', v', new', ht, hv, htt', hvv', htv'⟩ := run_goOnAlike hstep n htv
  exact ⟨t', v', new ++ new', (core_run_succ hs n).trans ht, (core_run_succ hu n).trans hv,
    by rw [htt', hts, List.append_assoc], by rw [hvv', hvu, List.append_assoc], htv'⟩

/-- Settles O50: the INIT makes replays of the two instances, and every later step keeps them so. -/
theorem replayAfterInitIsDeterministic : Obligations.ReplayAfterInitIsDeterministic := by
  intro s u m g l p ws hg hl hp hs hu n
  have hinit := step_init_goOnAlike ((widthsLegal_build g l p).2 ⟨hg, hl, hp⟩) hs hu
  obtain ⟨t, v, new, ht, hv, hts, hvu, htv⟩ := run_succ_goOnAlike (fun _ _ => Replaying.step_goOnAlike) hinit n
  exact ⟨t, v, new, ht, hv, hts, hvu, htv.block⟩

/-! ### The counters as counts -/

theorem counterBits_toNat_le (c : Counter) : (counterBits c).toNat ≤ 3 := Nat.le_of_lt_succ (counterBits c).isLt

theorem counterBits_toNat_eq_three_iff (c : Counter) : (counterBits c).toNat = 3 ↔ c = .ST := by
  cases c <;> simp [counterBits]

theorem counterBits_toNat_eq_zero_iff (c : Counter) : (counterBits c).toNat = 0 ↔ c = .SN := by
  cases c <;> simp [counterBits]

/-- n Taken count up by n, to at most 3 (R106). -/
theorem counterBits_iterate_taken (c : Counter) (n : Nat) :
    (counterBits ((fun x => ctrNext x .taken)^[n] c)).toNat = min ((counterBits c).toNat + n) 3 := by
  induction n with
  | zero => exact (min_eq_left (counterBits_toNat_le c)).symm
  | succ n ih => rw [Function.iterate_succ_apply', counterBits_ctrNext_taken, ih]; omega

/-- n NotTaken count down by n, to at least 0 (R106). -/
theorem counterBits_iterate_notTaken (c : Counter) (n : Nat) :
    (counterBits ((fun x => ctrNext x .notTaken)^[n] c)).toNat = (counterBits c).toNat - n := by
  induction n with
  | zero => rfl
  | succ n ih => rw [Function.iterate_succ_apply', counterBits_ctrNext_notTaken, ih]; omega

/-- An outcome is what the counter then predicts, unless the counter was strong on the other side (R106 (e)). -/
theorem taken_ctrNext_iff (c : Counter) (o : Outcome) :
    taken (ctrNext c o) = o ↔ ¬ (c = .SN ∧ o = .taken) ∧ ¬ (c = .ST ∧ o = .notTaken) := by
  cases c <;> cases o <;> decide

/-- Settles O39: a sequence of equal outcomes adds or takes away its length, and the count stays within 0..3. -/
theorem saturatingCounterLaws : Obligations.SaturatingCounterLaws := by
  refine ⟨fun c n hn => ?_, fun c n hn => ?_, fun c os => ⟨Nat.zero_le _, counterBits_toNat_le _⟩, fun c m n hmn => ?_,
    fun c m n hmn => ?_, fun c o hc => (taken_ctrNext_iff c o).2 ?_⟩
  · rw [← counterBits_toNat_eq_three_iff, counterBits_iterate_taken]; omega
  · have := counterBits_toNat_le c
    rw [← counterBits_toNat_eq_zero_iff, counterBits_iterate_notTaken]; omega
  · rw [counterBits_iterate_taken, counterBits_iterate_taken]; omega
  · rw [counterBits_iterate_notTaken, counterBits_iterate_notTaken]; omega
  · rcases hc with rfl | rfl | ⟨rfl, rfl⟩ | ⟨rfl, rfl⟩ <;> simp

/-- Settles O40: bit 1 state by state, and each direction of a transition by its law in numbers. -/
theorem counterAndChoiceCountAndSaturate : Obligations.CounterAndChoiceCountAndSaturate := by
  refine ⟨fun c => ?_, fun c o => ?_, fun c => ?_, fun c gOk => ?_⟩
  · cases c <;> decide
  · cases o with
    | taken => exact counterBits_ctrNext_taken c
    | notTaken => exact counterBits_ctrNext_notTaken c
  · cases c <;> decide
  · cases gOk with
    | true => exact choiceBits_choiceNext_true c
    | false => exact choiceBits_choiceNext_false c

/-! ### The history shift, bit by bit -/

theorem mask_getLsbD {w : Width} (hw : w.toNat ≤ 32) (i : Nat) : (mask w).getLsbD i = decide (i < w.toNat) := by
  rw [← BitVec.testBit_toNat, mask_toNat hw, Nat.testBit_two_pow_sub_one]

theorem outcomeBit_getLsbD (o : Outcome) (i : Nat) :
    (outcomeBit o).getLsbD i = (decide (i = 0) && decide (o = .taken)) := by
  cases o <;> cases i <;> simp [outcomeBit]

/-- Settles O41: below W the mask keeps the shifted bit, bit 0 the outcome's; from W on it clears it. -/
theorem historyShiftInsertsAtBitZero : Obligations.HistoryShiftInsertsAtBitZero := by
  intro h o w hw i
  simp only [hshift, BitVec.getLsbD_and, BitVec.getLsbD_or, BitVec.getLsbD_shiftLeft, BitVec.getLsbD_setWidth,
    outcomeBit_getLsbD, mask_getLsbD hw]
  by_cases hi : i < w.toNat
  · have hi32 : i < 32 := hi.trans_le hw
    cases i with
    | zero => simp [hi]
    | succ i => simp [hi, hi32]
  · simp [hi]

/-- The bits that a sequence of shifts has inserted are its outcomes, the last at bit 0. -/
theorem foldl_hshift_getLsbD (h : History) {w : Width} (hw : w.toNat ≤ 32) (os : List Outcome) {i : Nat}
    (hiw : i < w.toNat) (hi : i < os.length) :
    (os.foldl (fun x o => hshift x o w) h).getLsbD i = decide (os.reverse[i]? = some .taken) := by
  induction os using List.reverseRecOn generalizing i with
  | nil => exact absurd hi (Nat.not_lt_zero i)
  | append_singleton os o ih =>
    rw [List.foldl_concat, historyShiftInsertsAtBitZero _ o w hw, List.reverse_concat]
    cases i with
    | zero => simp [hiw]
    | succ i =>
      have hprev := ih (i := i) (by omega) (by simpa using hi)
      simp [hiw, hprev]

/-- Settles O42: W shifts have inserted every bit of a W-bit history. -/
theorem historyHoldsTheLastOutcomes : Obligations.HistoryHoldsTheLastOutcomes := by
  intro h w os hw hlen i hi
  rw [foldl_hshift_getLsbD h hw os hi (hlen ▸ hi), List.getElem?_reverse (hlen ▸ hi), hlen]

end Sys2Proof.Machine

/-! ## Control: what INIT leaves, and what PREDICT and TRAIN answer in every mode (41_control.md R120 to R128; R153) -/

namespace Sys2Proof.Machine

/-! ### A successful INIT -/

theorem exec_initOf_legal {g l p : Width} (hg : g.toNat ≤ 32) (hl : l.toNat ≤ 32) (hp : p.toNat ≤ 32) (m : Mode)
    (s : State) : exec (initOf m g l p) s =
      .next (respond .ok .notTaken { s with block := configured Config.build m g l p }) := by
  rw [exec_initOf, initCommand_legal m ((widthsLegal_build g l p).2 ⟨hg, hl, hp⟩)]

section Configured
variable (bd : Build) (m : Mode) (g l p : Width) (i : Word)

/-! Every table entry is at its INIT value (R27 to R32). -/

@[simp] theorem readPht_configured : readPht (configured bd m g l p) i = .WN := rfl
@[simp] theorem readLht_configured : readLht (configured bd m g l p) i = 0#32 := rfl
@[simp] theorem readLpt_configured : readLpt (configured bd m g l p) i = .WN := rfl
@[simp] theorem readGpt_configured : readGpt (configured bd m g l p) i = .WN := rfl
@[simp] theorem readCht_configured : readCht (configured bd m g l p) i = .WG := rfl
@[simp] theorem readPwt_configured : readPwt (configured bd m g l p) i = zeroWeights := rfl

end Configured

/-- Settles O14: the block left is the configured one, and GHR is PERC_HSEED masked, or 0, by the mode. -/
theorem successfulInitSetsEverything : Obligations.SuccessfulInitSetsEverything := by
  intro s m g l p hg hl hp
  refine ⟨_, exec_initOf_legal hg hl hp m s, answers_respond s _ .ok .notTaken, rfl, rfl, rfl, rfl, rfl,
    fun hm => ?_, fun hm => ?_, fun i => ⟨readPht_configured .., readLpt_configured .., readGpt_configured ..,
      readCht_configured .., readLht_configured .., fun j => ?_⟩⟩
  · rw [respond_block, configured_ghr, if_neg hm]
  · rw [respond_block, configured_ghr, if_pos hm, and_mask_toNat _ hg]
  · simp only [respond_block, readPwt_configured, zeroWeights_get]

/-- Settles O17: the block left is the configured one, whatever the block found. -/
theorem initForgetsTheEarlierBlock : Obligations.InitForgetsTheEarlierBlock :=
  fun s u m _ _ _ hg hl hp => ⟨_, _, exec_initOf_legal hg hl hp m s, exec_initOf_legal hg hl hp m u, rfl, rfl⟩

/-! ### PREDICT and TRAIN, by CFG_VALID -/

/-- Settles O21: both commands are the one operation NOT_INIT. -/
theorem unconfiguredCommandsAnswerNotInit : Obligations.UnconfiguredCommandsAnswerNotInit := by
  intro s pc out hv
  have hanswers : Answers s (notInitError s) .notInit .notTaken := answers_respond s s.block .notInit .notTaken
  exact ⟨⟨_, exec_predict_unconfigured hv pc, rfl, hanswers⟩, ⟨_, exec_train_unconfigured hv pc out, rfl, hanswers⟩⟩

/-- Settles O22: PREDICT answers the prediction of the active variant, and TRAIN none. -/
theorem configuredCommandsAnswerOk : Obligations.ConfiguredCommandsAnswerOk :=
  fun s pc out hv => ⟨⟨_, _, exec_predict_configured hv pc, answers_respond s s.block .ok _⟩,
    ⟨_, exec_train_configured hv pc out, answers_respond s _ .ok .notTaken⟩⟩

/-! ### PREDICT writes nothing, so that what follows it goes on from the same block -/

theorem exec_predict (pc : Word) (s : State) : exec (.predict pc) s = .next (predictCommand pc s) := rfl

/-- Configured or not, PREDICT is one response and nothing else (R125, R127). -/
theorem predictCommand_eq_respond (pc : Word) (s : State) : ∃ st pred, predictCommand pc s = respond st pred s := by
  unfold predictCommand; split
  · exact ⟨_, _, rfl⟩
  · exact ⟨_, _, notInitError_eq s⟩

@[simp] theorem predictCommand_block (pc : Word) (s : State) : (predictCommand pc s).block = s.block := by
  obtain ⟨st, pred, h⟩ := predictCommand_eq_respond pc s
  rw [h, respond_block]

@[simp] theorem predictCommand_host (pc : Word) (s : State) : (predictCommand pc s).host = s.host := by
  obtain ⟨st, pred, h⟩ := predictCommand_eq_respond pc s
  rw [h, respond_host]

theorem step_encode_predict {s : State} {pc : Word} {rest : List HostInput}
    (h : s.host = .command (encode (.predict pc)) :: rest) : step s = .next (predictCommand pc (acceptCommand rest s)) :=
  step_instr h (decode_encode rfl)

/-- Once the PREDICT commands in front are done, the n steps still to run start from the block the run started from. -/
theorem run_after_predicts (n : Nat) (pcs : List Word) {s : State} {rest : List HostInput}
    (h : s.host = pcs.map (fun q => .command (encode (.predict q))) ++ rest) :
    ∃ t, Sys2Proof.core.run (pcs.length + n) s = Sys2Proof.core.run n t ∧ t.block = s.block ∧ t.host = rest := by
  induction pcs generalizing s with
  | nil => exact ⟨s, by rw [List.length_nil, Nat.zero_add], rfl, h⟩
  | cons q pcs ih =>
    have hstep := step_encode_predict h
    obtain ⟨t, hrun, hblock, hhost⟩ := ih (s := predictCommand q (acceptCommand _ s)) (predictCommand_host _ _)
    rw [List.length_cons, Nat.add_right_comm, core_run_succ hstep]
    exact ⟨t, hrun, hblock.trans (predictCommand_block _ _), hhost⟩

/-- Settles O20: one PREDICT is one response, decided by the block, and any number of them leave the block. -/
theorem predictWritesNoState : Obligations.PredictWritesNoState := by
  refine ⟨fun s u pc h => ?_, fun s pcs rest h => ?_⟩
  · obtain ⟨t, v, ht, hv, -, hrsp⟩ := commandDependsOnTheBlockAlone s u (.predict pc) h
    rw [exec_predict] at ht
    cases ht
    exact ⟨_, v, exec_predict pc s, hv, predictCommand_block pc s, hrsp⟩
  · obtain ⟨t, hrun, hblock, hhost⟩ := run_after_predicts 0 pcs h
    exact ⟨t, hrun, hblock, hhost⟩

/-- Settles O23: the TRAIN finds the block that stood before the PREDICT commands, and equal blocks answer alike. -/
theorem trainIgnoresEarlierPredicts : Obligations.TrainIgnoresEarlierPredicts := by
  intro s pcs pc out rest h
  obtain ⟨x, hrun, hblock, hhost⟩ := run_after_predicts 1 pcs h
  have hstep : step x = .next (perform Config.build (.train pc out) (acceptCommand rest x)) :=
    step_instr hhost (decode_encode rfl)
  obtain ⟨st, pred, b, c, ht, hu, hbc⟩ :=
    perform_sameAnswer Config.build (s := acceptCommand rest x) (u := s) hblock (.train pc out)
  rw [core_run_succ hstep, ht] at hrun
  exact ⟨_, _, hrun, (exec_eq_perform _ s).trans (congrArg _ hu), hbc, rfl, rfl⟩

/-! ### Zero widths (R124) -/

theorem and_mask_zero (x : Word) : x &&& mask 0#6 = 0#32 := by rw [mask_zero, BitVec.and_zero]

theorem hshift_zero_width (h : History) (o : Outcome) : hshift h o 0#6 = 0#32 := and_mask_zero _

/-- A history without a bit outside the mask of 0 bits. -/
theorem eq_zero_of_masked_zero {x : Word} (h : x &&& ~~~ mask 0#6 = 0#32) : x = 0#32 := by
  rw [← and_mask_of_masked h, and_mask_zero]

theorem gshareIndex_zero_width {b : Block} (hg : b.cfgG = 0#6) (hghr : b.ghr = 0#32) (pc : Word) :
    gshareIndex b pc = 0#32 := by
  rw [gshareIndex, hg, hghr, and_mask_zero, BitVec.xor_zero]

theorem percY_zero_width {b : Block} (hg : b.cfgG = 0#6) (pc : Word) : percY b pc = 0 := by
  rw [percY, hg, BitVec.toNat_zero, dot_zero]

theorem pcIndex_zero_width {b : Block} (hp : b.cfgP = 0#6) (pc : Word) : pcIndex b pc = 0#32 := by
  rw [pcIndex, hp, and_mask_zero]

/-- On a configured block that meets the invariant, every local history of 0 bits is 0. -/
theorem Inv.readLht_zero_width {bd : Build} {b : Block} (h : Inv bd b) (hv : b.cfgValid = true) (hl : b.cfgL = 0#6)
    (i : Word) : readLht b i = 0#32 := by
  have hlt := h.lhtMasked i
  rw [liveWidth_configured hv, hl, BitVec.toNat_zero, pow_zero, Nat.lt_one_iff] at hlt
  exact BitVec.eq_of_toNat_eq hlt

/-- Settles O46: the invariant masks GHR and bounds the local histories, and an index masked to 0 bits is 0. -/
theorem zeroWidthsDegenerate : Obligations.ZeroWidthsDegenerate := by
  intro bd b pc h hv
  refine ⟨fun hg => ?_, h.readLht_zero_width hv, fun hp => pcIndex_zero_width hp pc⟩
  have hghr : b.ghr = 0#32 := eq_zero_of_masked_zero (hg ▸ h.ghrMasked)
  exact ⟨hghr, gshareIndex_zero_width hg hghr pc, percY_zero_width hg pc⟩

/-! ### GSHARE after INIT (R153) -/

theorem gsharePredict_configured (bd : Build) (m : Mode) (g l p : Width) (pc : Word) :
    gsharePredict (configured bd m g l p) pc = .notTaken := by
  rw [gsharePredict, readPht_configured, taken]

@[simp] theorem gshareTrain_cfgG (b : Block) (pc : Word) (o : Outcome) : (gshareTrain b pc o).cfgG = b.cfgG := rfl

@[simp] theorem gshareTrain_ghr (b : Block) (pc : Word) (o : Outcome) :
    (gshareTrain b pc o).ghr = hshift b.ghr o b.cfgG := rfl

/-- With G = 0 every pc shares one counter, and GHR stays 0: training it is seen by every pc. -/
theorem gsharePredict_gshareTrain_zero_width {b : Block} (hmem : Memory.wf b = true) (hg : b.cfgG = 0#6)
    (hghr : b.ghr = 0#32) (pc pc' : Word) (o : Outcome) :
    gsharePredict (gshareTrain b pc o) pc' = taken (ctrNext (readPht b 0#32) o) := by
  have hg' : (gshareTrain b pc o).cfgG = 0#6 := (gshareTrain_cfgG b pc o).trans hg
  have hghr' : (gshareTrain b pc o).ghr = 0#32 := by rw [gshareTrain_ghr, hg, hshift_zero_width]
  rw [gsharePredict, gshareIndex_zero_width hg' hghr', gshareTrain, readPht_congr (shiftGhr_pht ..),
    gshareIndex_zero_width hg hghr, readPht_writePht hmem, if_pos rfl]

/-- Settles O28: every counter starts at WeaklyNotTaken, and one step from it is WeaklyTaken. -/
theorem gshareAfterInit : Obligations.GshareAfterInit := by
  intro s t g l p hg hl hp h
  obtain rfl := Host.Outcome.next.inj ((exec_initOf_legal hg hl hp .gshare s).symm.trans h)
  refine ⟨fun pc => ⟨_, exec_predict_configured rfl pc, ?_⟩, fun hg0 pc pc' => ?_⟩
  · rw [respond_rsp, respond_block, predictOutcome_gshare pc rfl, gsharePredict_configured]; rfl
  · obtain ⟨hvalid, hmode, -, -, -⟩ := trainBlock_sameConfig Config.build (configured Config.build .gshare g l p) pc .taken
    have hpredict : predictOutcome (trainBlock Config.build (configured Config.build .gshare g l p) pc .taken) pc' =
        .taken := by
      rw [predictOutcome_gshare pc' hmode, trainBlock_gshare Config.build pc .taken rfl,
        gsharePredict_gshareTrain_zero_width (memory_wf_configured ..) hg0 rfl, readPht_configured]; rfl
    refine ⟨_, _, exec_train_configured rfl pc .taken, exec_predict_configured hvalid pc', ?_⟩
    rw [respond_rsp]
    exact congrArg (fun pred => some (rspWord .ok pred)) hpredict

end Sys2Proof.Machine

/-! ## STATIC mode: PREDICT is always Taken, and TRAIN is no operation (42_static.md R140, R141) -/

namespace Sys2Proof.Machine

theorem exec_predict_static {s : State} (h : Active s .static) (pc : Word) :
    exec (.predict pc) s = .next (respond .ok .taken s) := by
  obtain ⟨hvalid, hmode⟩ := h
  rw [exec_predict_configured hvalid pc, predictOutcome_static pc hmode]

theorem exec_train_static {s : State} (h : Active s .static) (pc : Word) (o : Outcome) :
    exec (.train pc o) s = .next (respond .ok .notTaken s) := by
  obtain ⟨hvalid, hmode⟩ := h
  rw [exec_train_configured hvalid pc o, trainBlock_static Config.build pc o hmode]

/-- Settles O24: whatever the pc, the command is the one response OK, Taken. -/
theorem staticPredictAnswersTaken : Obligations.StaticPredictAnswersTaken :=
  fun s pc h => ⟨_, exec_predict_static h pc, respond_block .., answers_respond s s.block .ok .taken⟩

/-- Settles O25: whatever the operands, the command is the one response OK, with the block it found. -/
theorem staticTrainWritesNothing : Obligations.StaticTrainWritesNothing :=
  fun s pc o h => ⟨_, exec_train_static h pc o, respond_block .., answers_respond s s.block .ok .notTaken⟩

end Sys2Proof.Machine

/-! ## GSHARE mode: the counter a pc names, and what TRAIN writes (43_gshare.md R150 to R152) -/

namespace Sys2Proof.Machine

/-! ### Outcomes and counters, as the statements of the modes write them -/

/-- What a counter predicts (R100). -/
theorem taken_eq_ite (c : Counter) : taken c = if c = .WT ∨ c = .ST then .taken else .notTaken := by
  split_ifs with h
  · exact (taken_eq_taken_iff c).2 h
  · exact (outcome_ne_taken _).1 fun ht => h ((taken_eq_taken_iff c).1 ht)

theorem outcomeBit_toNat (o : Outcome) : (outcomeBit o).toNat = if o = .taken then 1 else 0 := by
  cases o <;> rfl

/-- The counter transition is the saturating count (R101). -/
theorem counterBits_ctrNext (c : Counter) (o : Outcome) :
    (counterBits (ctrNext c o)).toNat = saturate (counterBits c).toNat (decide (o = .taken)) := by
  obtain ⟨-, hcount, -, -⟩ := counterAndChoiceCountAndSaturate
  exact hcount c o

/-! ### The index and the trained block -/

/-- The Gshare index in numbers: GHR XOR the remainder of pc (R152). -/
theorem gshareIndex_eq_ofNat {b : Block} (hg : b.cfgG.toNat ≤ 32) (pc : Word) :
    gshareIndex b pc = BitVec.ofNat 32 (b.ghr.toNat ^^^ (pc.toNat % 2 ^ b.cfgG.toNat)) := by
  rw [← and_mask_toNat pc hg, ← BitVec.toNat_xor, BitVec.ofNat_toNat, BitVec.setWidth_eq, gshareIndex]

/-- TRAIN moves the counter that GHR before the shift names, and no other (R151, R263). -/
theorem readPht_gshareTrain {b : Block} (hmem : Memory.wf b = true) (pc : Word) (o : Outcome) (j : Word) :
    readPht (gshareTrain b pc o) j =
      if j = gshareIndex b pc then ctrNext (readPht b (gshareIndex b pc)) o else readPht b j := by
  rw [gshareTrain, readPht_congr (shiftGhr_pht ..), readPht_writePht hmem]

/-- TRAIN writes PHT and GHR only (R151). -/
theorem gshareTrain_frame (b : Block) (pc : Word) (o : Outcome) :
    gshareTrain b pc o = { b with pht := (gshareTrain b pc o).pht, ghr := (gshareTrain b pc o).ghr } := rfl

/-! ### The commands -/

theorem exec_predict_gshare {s : State} (h : Active s .gshare) (pc : Word) :
    exec (.predict pc) s = .next (respond .ok (gsharePredict s.block pc) s) := by
  obtain ⟨hvalid, hmode⟩ := h
  rw [exec_predict_configured hvalid pc, predictOutcome_gshare pc hmode]

theorem exec_train_gshare {s : State} (h : Active s .gshare) (pc : Word) (o : Outcome) :
    exec (.train pc o) s = .next (respond .ok .notTaken { s with block := gshareTrain s.block pc o }) := by
  obtain ⟨hvalid, hmode⟩ := h
  rw [exec_train_configured hvalid pc o, trainBlock_gshare Config.build pc o hmode]

/-- Settles O26: the command is one response, what the counter at the Gshare index predicts. -/
theorem gsharePredictReadsTheIndexedCounter : Obligations.GsharePredictReadsTheIndexedCounter := by
  intro s pc hactive hg
  dsimp only
  rw [← gshareIndex_eq_ofNat hg, ← taken_eq_ite]
  exact ⟨_, exec_predict_gshare hactive pc, respond_block .., answers_respond s s.block .ok _⟩

/-- Settles O27: counter by counter, what TRAIN leaves of PHT is one saturating step at the Gshare index, and GHR is the
history shifted. -/
theorem gshareTrainMovesOneCounterAndShifts : Obligations.GshareTrainMovesOneCounterAndShifts := by
  intro s pc out hactive hg hmem
  dsimp only
  rw [← gshareIndex_eq_ofNat hg]
  refine ⟨_, exec_train_gshare hactive pc out, answers_respond .., fun j => ?counter, ?history,
    gshareTrain_frame s.block pc out⟩
  case counter => rw [respond_block, readPht_gshareTrain hmem, ← counterBits_ctrNext]; split <;> rfl
  case history => rw [respond_block, gshareTrain_ghr, hshift_toNat _ _ hg, outcomeBit_toNat]

end Sys2Proof.Machine

/-! ## TOURNAMENT mode: the vote a PREDICT answers, and what TRAIN writes (44_tournament.md R170 to R179) -/

namespace Sys2Proof.Machine

/-! ### Outcomes, choices and the index of LHT, as the statements write them -/

theorem outcome_eq_iff (o p : Outcome) : o = p ↔ (o = .taken ↔ p = .taken) := by cases o <;> cases p <;> simp

theorem outcome_ne_iff (o p : Outcome) : o ≠ p ↔ (o = .taken ↔ ¬ p = .taken) := by
  rw [Ne, outcome_eq_iff]; tauto

theorem favorsLocal_eq_true_iff (c : Choice) : favorsLocal c = true ↔ c = .SL ∨ c = .WL := by
  cases c <;> simp [favorsLocal]

theorem favorsLocal_eq_false_iff (c : Choice) : favorsLocal c = false ↔ c = .WG ∨ c = .SG := by
  cases c <;> simp [favorsLocal]

/-- The choice transition is the saturating count, up when the global vote was right (R103). -/
theorem choiceBits_choiceNext (c : Choice) (gOk : Bool) :
    (choiceBits (choiceNext c gOk)).toNat = saturate (choiceBits c).toNat gOk := by
  obtain ⟨-, -, -, hcount⟩ := counterAndChoiceCountAndSaturate
  exact hcount c gOk

/-- The index of LHT in numbers: the remainder of pc (R176). -/
theorem pcIndex_eq_ofNat {b : Block} (hp : b.cfgP.toNat ≤ 32) (pc : Word) :
    pcIndex b pc = BitVec.ofNat 32 (pc.toNat % 2 ^ b.cfgP.toNat) := by
  rw [← and_mask_toNat pc hp, BitVec.ofNat_toNat, BitVec.setWidth_eq, pcIndex]

/-! ### The prediction -/

section Predict
variable {b : Block}

theorem tournamentPredict_of_favorsLocal (h : favorsLocal (readCht b b.ghr) = true) (pc : Word) :
    tournamentPredict b pc = taken (readLpt b (readLht b (pcIndex b pc))) := if_pos h

theorem tournamentPredict_of_favorsGlobal (h : favorsLocal (readCht b b.ghr) = false) (pc : Word) :
    tournamentPredict b pc = taken (readGpt b b.ghr) := if_neg (Bool.eq_false_iff.1 h)

/-- While the choice favors local, GPT is not read (R179 (c)). -/
theorem tournamentPredict_replace_gpt (h : favorsLocal (readCht b b.ghr) = true) (gpt : Table Counter) (pc : Word) :
    tournamentPredict { b with gpt := gpt } pc = tournamentPredict b pc :=
  (tournamentPredict_of_favorsLocal (b := { b with gpt := gpt }) h pc).trans
    (tournamentPredict_of_favorsLocal h pc).symm

/-- While the choice favors global, LHT and LPT are not read (R179 (c)). -/
theorem tournamentPredict_replace_lht_lpt (h : favorsLocal (readCht b b.ghr) = false) (lht : Table History)
    (lpt : Table Counter) (pc : Word) :
    tournamentPredict { b with lht := lht, lpt := lpt } pc = tournamentPredict b pc :=
  (tournamentPredict_of_favorsGlobal (b := { b with lht := lht, lpt := lpt }) h pc).trans
    (tournamentPredict_of_favorsGlobal h pc).symm

end Predict

/-! ### The trained block -/

/-- No step of TRAIN reads what an earlier one wrote: each table is as its step alone would leave it, and GHR is the
history shifted (R171, R172). -/
theorem tournamentTrain_eq (b : Block) (pc : Word) (o : Outcome) : tournamentTrain b pc o =
    { b with
      lpt := (writeLpt b (readLht b (pcIndex b pc)) (ctrNext (readLpt b (readLht b (pcIndex b pc))) o)).lpt
      lht := (writeLht b (pcIndex b pc) (hshift (readLht b (pcIndex b pc)) o b.cfgL)).lht
      gpt := (writeGpt b b.ghr (ctrNext (readGpt b b.ghr) o)).gpt
      cht := (trainChoice b (tournamentLookup b pc) o).cht
      ghr := hshift b.ghr o b.cfgG } := by
  unfold tournamentTrain trainChoice
  dsimp only
  split <;> rfl

/-- The history takes the outcome in (R178). -/
@[simp] theorem tournamentTrain_ghr (b : Block) (pc : Word) (o : Outcome) :
    (tournamentTrain b pc o).ghr = hshift b.ghr o b.cfgG := by
  rw [tournamentTrain_eq]

/-- TRAIN writes four tables and GHR only (R171). -/
theorem tournamentTrain_frame (b : Block) (pc : Word) (o : Outcome) : tournamentTrain b pc o =
    { b with lpt := (tournamentTrain b pc o).lpt, lht := (tournamentTrain b pc o).lht,
             gpt := (tournamentTrain b pc o).gpt, cht := (tournamentTrain b pc o).cht,
             ghr := (tournamentTrain b pc o).ghr } := by
  rw [tournamentTrain_eq]

section Train
variable {b : Block} (hmem : Memory.wf b = true) (pc : Word) (o : Outcome) (j : Word)
include hmem

/-- The local counter moves at the local history before the shift (R177). -/
theorem readLpt_tournamentTrain : readLpt (tournamentTrain b pc o) j =
    if j = readLht b (pcIndex b pc) then ctrNext (readLpt b (readLht b (pcIndex b pc))) o else readLpt b j := by
  rw [readLpt_congr (congrArg Block.lpt (tournamentTrain_eq b pc o)), ← readLpt_writeLpt hmem]; rfl

/-- The local history of pc takes the outcome in (R173). -/
theorem readLht_tournamentTrain : readLht (tournamentTrain b pc o) j =
    if j = pcIndex b pc then hshift (readLht b (pcIndex b pc)) o b.cfgL else readLht b j := by
  rw [readLht_congr (congrArg Block.lht (tournamentTrain_eq b pc o)), ← readLht_writeLht hmem]; rfl

/-- The global counter moves at GHR before the shift (R174). -/
theorem readGpt_tournamentTrain : readGpt (tournamentTrain b pc o) j =
    if j = b.ghr then ctrNext (readGpt b b.ghr) o else readGpt b j := by
  rw [readGpt_congr (congrArg Block.gpt (tournamentTrain_eq b pc o)), ← readGpt_writeGpt hmem]; rfl

/-- The choice moves at the lookup's global index, and only when the looked-up votes disagree (R175). -/
theorem readCht_trainChoice (k : TournamentLookup) : readCht (trainChoice b k o) j =
    if j = k.gIdx ∧ taken k.localVote ≠ taken k.globalVote
    then choiceNext k.choice (decide (taken k.globalVote = o)) else readCht b j := by
  unfold trainChoice
  by_cases hvotes : taken k.localVote = taken k.globalVote
  · rw [if_pos hvotes, if_neg fun h => h.2 hvotes]
  · rw [if_neg hvotes, readCht_writeCht hmem]
    simp only [ne_eq, hvotes, not_false_eq_true, and_true]

/-- The choice moves at GHR before the shift, and only when the votes before the command disagree (R175). -/
theorem readCht_tournamentTrain : readCht (tournamentTrain b pc o) j =
    if j = b.ghr ∧ taken (readLpt b (readLht b (pcIndex b pc))) ≠ taken (readGpt b b.ghr)
    then choiceNext (readCht b b.ghr) (decide (taken (readGpt b b.ghr) = o)) else readCht b j := by
  rw [readCht_congr (congrArg Block.cht (tournamentTrain_eq b pc o))]
  exact readCht_trainChoice hmem o j (tournamentLookup b pc)

end Train

/-! ### The commands -/

theorem exec_predict_tournament {s : State} (h : Active s .tournament) (pc : Word) :
    exec (.predict pc) s = .next (respond .ok (tournamentPredict s.block pc) s) := by
  obtain ⟨hvalid, hmode⟩ := h
  rw [exec_predict_configured hvalid pc, predictOutcome_tournament pc hmode]

theorem exec_train_tournament {s : State} (h : Active s .tournament) (pc : Word) (o : Outcome) :
    exec (.train pc o) s = .next (respond .ok .notTaken { s with block := tournamentTrain s.block pc o }) := by
  obtain ⟨hvalid, hmode⟩ := h
  rw [exec_train_configured hvalid pc o, trainBlock_tournament Config.build pc o hmode]

/-- Settles O29: the command is one response, what the favored of the two counters predicts. -/
theorem tournamentPredictFollowsTheChoice : Obligations.TournamentPredictFollowsTheChoice := by
  intro s pc hactive hp
  dsimp only
  rw [← pcIndex_eq_ofNat hp, ← taken_eq_ite, ← taken_eq_ite, ← favorsLocal_eq_true_iff, ← favorsLocal_eq_false_iff]
  refine ⟨_, exec_predict_tournament hactive pc, respond_block .., fun hlocal => ?_, fun hglobal => ?_⟩
  · rw [← tournamentPredict_of_favorsLocal hlocal]
    exact answers_respond s s.block .ok _
  · rw [← tournamentPredict_of_favorsGlobal hglobal pc]
    exact answers_respond s s.block .ok _

/-- Settles O30: entry by entry, each table is one step of its rule from the block before the command. -/
theorem tournamentTrainFollowsItsSteps : Obligations.TournamentTrainFollowsItsSteps := by
  intro s pc out hactive hg hl hp hmem
  dsimp only
  rw [← pcIndex_eq_ofNat hp]
  refine ⟨_, exec_train_tournament hactive pc out, answers_respond .., fun j => ?lpt, fun j => ?lht, fun j => ?gpt,
    fun j => ?cht, ?history, tournamentTrain_frame s.block pc out⟩
  case lpt => rw [respond_block, readLpt_tournamentTrain hmem, ← counterBits_ctrNext]; split <;> rfl
  case lht =>
    rw [respond_block, readLht_tournamentTrain hmem, ← outcomeBit_toNat, ← hshift_toNat _ _ hl]; split <;> rfl
  case gpt => rw [respond_block, readGpt_tournamentTrain hmem, ← counterBits_ctrNext]; split <;> rfl
  case cht =>
    simp only [respond_block, readCht_tournamentTrain hmem, outcome_ne_iff, outcome_eq_iff _ out, taken_eq_taken_iff,
      ← choiceBits_choiceNext]
    split <;> rfl
  case history => rw [respond_block, tournamentTrain_ghr, hshift_toNat _ _ hg, outcomeBit_toNat]

/-- Settles O31: the one entry of CHT that TRAIN can write is the one at GHR, and agreeing votes keep that one too. -/
theorem choiceIsUntouchedUnderAgreement : Obligations.ChoiceIsUntouchedUnderAgreement := by
  intro s t pc out hactive hmem h
  obtain rfl := Host.Outcome.next.inj ((exec_train_tournament hactive pc out).symm.trans h)
  refine ⟨fun hagree j => ?_, fun j hj => ?_⟩
  · rw [respond_block, readCht_tournamentTrain hmem, if_neg fun hwritten => hwritten.2 hagree]
  · rw [respond_block, readCht_tournamentTrain hmem, if_neg fun hwritten => hj hwritten.1]

/-- Settles O32: each of the three commands is one response, and replacing the tables of the sub-predictor that is not
favored leaves the prediction in it. -/
theorem theOtherPredictorIsNotRead : Obligations.TheOtherPredictorIsNotRead := by
  intro s pc gpt lht lpt hactive
  refine ⟨_, _, _, exec_predict_tournament hactive pc,
    exec_predict_tournament (s := { s with block := { s.block with gpt := gpt } }) hactive pc,
    exec_predict_tournament (s := { s with block := { s.block with lht := lht, lpt := lpt } }) hactive pc,
    fun hlocal => ?_, fun hglobal => ?_⟩
  · rw [respond_rsp, respond_rsp, tournamentPredict_replace_gpt hlocal]
  · rw [respond_rsp, respond_rsp, tournamentPredict_replace_lht_lpt hglobal]

end Sys2Proof.Machine

/-! ## PERCEPTRON mode: the sum a pc names, and what TRAIN writes (45_perceptron.md R200 to R209) -/

namespace Sys2Proof.Machine

/-! ### The history vector, the target and the sum, as the statements write them -/

/-- The history vector, entry by entry (R200). -/
theorem historyEntry_eq_ite (ghr : History) (j : Nat) :
    historyEntry ghr j = if j = 0 then 1 else if ghr.getLsbD (j - 1) then 1 else -1 := by
  cases j <;> rfl

/-- The target of the update (R202). -/
theorem target_eq_ite (o : Outcome) : target o = if o = .taken then 1 else -1 := by
  cases o <;> rfl

theorem weightAt_val (w : WeightVec) (j : Fin 32) : weightAt w j.val = w[j] := by simp [weightAt]

theorem dot_eq_sum_range (w : WeightVec) (ghr : History) (h : Nat) :
    dot w ghr h = ∑ i ∈ Finset.range h, product w ghr i := by
  induction h with
  | zero => rfl
  | succ h ih => rw [dot_succ, ih, Finset.sum_range_succ, product]

/-- The dot product as a sum over all the weights a vector has, of which those at and past h count 0 (R203). -/
theorem dot_eq_sum_fin (w : WeightVec) (ghr : History) {h : Nat} (hh : h ≤ 32) :
    dot w ghr h = ∑ j : Fin 32, if j.val < h then w[j] * historyEntry ghr j.val else 0 := by
  have hlive : (Finset.range 32).filter (· < h) = Finset.range h := by
    ext i
    simp only [Finset.mem_filter, Finset.mem_range]
    omega
  rw [dot_eq_sum_range, ← hlive, Finset.sum_filter, Finset.sum_range]
  simp only [product, weightAt_val]

theorem percY_eq_sum_fin {b : Block} (hg : b.cfgG.toNat ≤ 32) (pc : Word) : percY b pc =
    ∑ j : Fin 32, if j.val < b.cfgG.toNat then (readPwt b (pcIndex b pc))[j] * historyEntry b.ghr j.val else 0 :=
  dot_eq_sum_fin _ _ hg

/-- Weights that are all 0 have the sum 0 over any number of them, those past the last included. -/
theorem dot_of_weights_zero {w : WeightVec} (hw : ∀ j : Fin 32, w[j] = 0) (ghr : History) (h : Nat) :
    dot w ghr h = 0 := by
  have hat (i : Nat) : weightAt w i = 0 := by
    obtain ⟨hlo, hhi⟩ := weightAt_mem le_rfl le_rfl (fun j => ⟨(hw j).ge, (hw j).le⟩) i
    exact le_antisymm hhi hlo
  rw [dot_eq_sum_range]
  exact Finset.sum_eq_zero fun i _ => by rw [product, hat, zero_mul]

/-! ### The prediction and the training condition -/

theorem percOutcome_of_nonneg {y : Int} (h : 0 ≤ y) : percOutcome y = .taken := if_pos h

theorem percOutcome_of_neg {y : Int} (h : y < 0) : percOutcome y = .notTaken := if_neg (not_le.2 h)

theorem percOutcome_eq_taken_iff (y : Int) : percOutcome y = .taken ↔ 0 ≤ y := by
  unfold percOutcome; split_ifs with h <;> simp [h]

/-- TRAIN moves the weights iff the prediction was wrong or the sum is within THETA of 0 (R204). -/
theorem percTrains_iff (theta y : Int) (o : Outcome) :
    percTrains theta y o = true ↔ ¬ (0 ≤ y ↔ o = .taken) ∨ |y| ≤ theta := by
  rw [percTrains, Bool.or_eq_true, decide_eq_true_iff, decide_eq_true_iff, Int.natCast_natAbs, Ne, outcome_eq_iff,
    percOutcome_eq_taken_iff]

/-! ### The trained block -/

section Train
variable {bd : Build} {b : Block} {pc : Word} {o : Outcome}

/-- Where the condition holds, TRAIN writes the vector of pc (R202). -/
theorem trainWeights_of_percTrains (h : percTrains bd.theta (percY b pc) o = true) : trainWeights bd b pc o =
    writePwt b (pcIndex b pc) (updateWeights bd.wbits (readPwt b (pcIndex b pc)) b.ghr b.cfgG.toNat o) := by
  rw [trainWeights, if_pos h, writePwt]

/-- Where it does not, TRAIN writes no weight (R202). -/
theorem trainWeights_of_not_percTrains (h : ¬ percTrains bd.theta (percY b pc) o = true) :
    trainWeights bd b pc o = b := by
  rw [trainWeights, if_neg h]

/-- The one vector that TRAIN can move is the one of pc, and its update uses GHR before the shift (R202, R204, R207). -/
theorem readPwt_percTrain (hmem : Memory.wf b = true) (j : Word) : readPwt (percTrain bd b pc o) j =
    if j = pcIndex b pc ∧ percTrains bd.theta (percY b pc) o = true
    then updateWeights bd.wbits (readPwt b (pcIndex b pc)) b.ghr b.cfgG.toNat o else readPwt b j := by
  rw [percTrain, readPwt_congr (shiftGhr_pwt ..)]
  by_cases h : percTrains bd.theta (percY b pc) o = true
  · rw [trainWeights_of_percTrains h, readPwt_writePwt hmem]
    simp only [h, and_true]
  · rw [trainWeights_of_not_percTrains h, if_neg fun hwritten => h hwritten.2]

/-- Where the condition holds, each of the H weights of pc's vector moves by one clipped step (R202, R205). -/
theorem percTrain_weight (hmem : Memory.wf b = true) (h : percTrains bd.theta (percY b pc) o = true) (j : Fin 32) :
    (readPwt (percTrain bd b pc o) (pcIndex b pc))[j] =
      if j.val < b.cfgG.toNat
      then clipWeight bd.wbits ((readPwt b (pcIndex b pc))[j] + target o * historyEntry b.ghr j.val)
      else (readPwt b (pcIndex b pc))[j] := by
  rw [readPwt_percTrain hmem, if_pos ⟨rfl, h⟩, updateWeights_get]

/-- A correct prediction with a sum beyond THETA trains no weight: what is left of TRAIN is the shift (R206, R209). -/
theorem percTrain_eq_shiftGhr (hcorrect : 0 ≤ percY b pc ↔ o = .taken) (hconfident : bd.theta < |percY b pc|) :
    percTrain bd b pc o = shiftGhr b o := by
  have hkept : ¬ percTrains bd.theta (percY b pc) o = true := by
    rw [percTrains_iff, not_or, not_not, not_le]
    exact ⟨hcorrect, hconfident⟩
  rw [percTrain, trainWeights_of_not_percTrains hkept]

end Train

/-- The history takes the outcome in, whatever the weights do (R206). -/
@[simp] theorem percTrain_ghr (bd : Build) (b : Block) (pc : Word) (o : Outcome) :
    (percTrain bd b pc o).ghr = hshift b.ghr o b.cfgG := rfl

/-- TRAIN writes PWT and GHR only (R202). -/
theorem percTrain_frame (bd : Build) (b : Block) (pc : Word) (o : Outcome) :
    percTrain bd b pc o = { b with pwt := (percTrain bd b pc o).pwt, ghr := (percTrain bd b pc o).ghr } := rfl

/-! ### The commands -/

theorem exec_predict_perceptron {s : State} (h : Active s .perceptron) (pc : Word) :
    exec (.predict pc) s = .next (respond .ok (percOutcome (percY s.block pc)) s) := by
  obtain ⟨hvalid, hmode⟩ := h
  rw [exec_predict_configured hvalid pc, predictOutcome_perceptron pc hmode, percPredict]

/-- TRAIN of any build. -/
theorem trainCommand_perceptron {s : State} (h : Active s .perceptron) (bd : Build) (pc : Word) (o : Outcome) :
    trainCommand bd pc o s = respond .ok .notTaken { s with block := percTrain bd s.block pc o } := by
  obtain ⟨hvalid, hmode⟩ := h
  rw [trainCommand, if_pos hvalid, trainBlock_perceptron bd pc o hmode]

/-- Settles O33: the command is one response, the sign of the sum at the index of pc. -/
theorem perceptronPredictIsTheSignOfTheSum : Obligations.PerceptronPredictIsTheSignOfTheSum := by
  intro s pc hactive hg hp
  simp only [← historyEntry_eq_ite, ← pcIndex_eq_ofNat hp, ← percY_eq_sum_fin hg]
  refine ⟨_, exec_predict_perceptron hactive pc, respond_block .., fun hy => ?_, fun hy => ?_⟩
  · rw [percOutcome_of_nonneg hy]
    exact answers_respond s s.block .ok _
  · rw [percOutcome_of_neg hy]
    exact answers_respond s s.block .ok _

/-- Settles O34: the vector of pc is updated exactly under the training condition, and GHR is the history shifted. -/
theorem perceptronTrainClipsAndAlwaysShifts : Obligations.PerceptronTrainClipsAndAlwaysShifts := by
  intro s pc out hactive hg hp hmem
  refine ⟨exec_eq_perform (.train pc out) s, fun bd => ?_⟩
  simp only [← historyEntry_eq_ite, ← target_eq_ite, ← pcIndex_eq_ofNat hp, ← percY_eq_sum_fin hg, ← percTrains_iff,
    trainCommand_perceptron hactive, respond_block]
  refine ⟨answers_respond .., fun htrains j => ?moved, fun hkept => ?kept, fun k hk => ?others, ?history,
    percTrain_frame bd s.block pc out⟩
  case moved => exact percTrain_weight hmem htrains j
  case kept => rw [readPwt_percTrain hmem, if_neg fun hwritten => hkept hwritten.2]
  case others => rw [readPwt_percTrain hmem, if_neg fun hwritten => hk hwritten.1]
  case history => rw [percTrain_ghr, hshift_toNat _ _ hg, outcomeBit_toNat]

/-- Settles O35: the sum of zeros is 0, and the tie answers Taken. -/
theorem zeroWeightsPredictTaken : Obligations.ZeroWeightsPredictTaken := by
  intro s pc hactive hw
  have hy : percY s.block pc = 0 := dot_of_weights_zero hw _ _
  refine ⟨_, exec_predict_perceptron hactive pc, respond_block .., ?_⟩
  rw [percOutcome_of_nonneg hy.ge]
  exact answers_respond s s.block .ok _

/-- Settles O38: a negative THETA is below every abs(y), and a sum beyond THETA leaves the shift alone. -/
theorem confidentCorrectTrainOnlyShifts : Obligations.ConfidentCorrectTrainOnlyShifts :=
  fun _ _ _ _ hcorrect => ⟨fun hneg => percTrain_eq_shiftGhr hcorrect (hneg.trans_le (abs_nonneg _)),
    percTrain_eq_shiftGhr hcorrect⟩

end Sys2Proof.Machine

/-! ## Exceptions: the STATUS of a command, the error record, and runs that never stop (60_exceptions.md R230 to R243) -/

namespace Sys2Proof.Machine

/-! ### The order in which STATUS is decided (R235) -/

/-- The number n of a word is a reserved encoding: OP = 0b11, or a 1 in RSVD (R89). -/
abbrev ReservedEncoding (n : Nat) : Prop :=
  n % 4 = 3 ∨ (n % 4 = 0 ∧ n / 2 ^ 23 ≠ 0) ∨ (n % 4 = 1 ∧ n / 4 % 2 ^ 30 ≠ 0) ∨ (n % 4 = 2 ∧ n / 8 % 2 ^ 29 ≠ 0)

/-- The fields of the INIT word of number n hold an unknown mode, or a width above this hardware's maxima (R122). -/
abbrev FailingInit (n : Nat) : Prop :=
  4 ≤ n / 4 % 8 ∨ 32 < n / 2 ^ 5 % 64 ∨ 32 < n / 2 ^ 11 % 64 ∨ 32 < n / 2 ^ 17 % 64

/-- The STATUS of the word of number n, by CFG_VALID, decided in the order of R235. -/
def decidedStatus (cfgValid : Bool) (n : Nat) : Status :=
  if ReservedEncoding n then .illegal
  else if n % 4 = 0 then if FailingInit n then .cfgErr else .ok
  else if cfgValid then .ok else .notInit

section DecidedStatus
variable {v : Bool} {n : Nat}

theorem decidedStatus_reserved (h : ReservedEncoding n) : decidedStatus v n = .illegal := if_pos h

theorem decidedStatus_failingInit (hr : ¬ ReservedEncoding n) (hop : n % 4 = 0) (hbad : FailingInit n) :
    decidedStatus v n = .cfgErr := by rw [decidedStatus, if_neg hr, if_pos hop, if_pos hbad]

theorem decidedStatus_init (hr : ¬ ReservedEncoding n) (hop : n % 4 = 0) (hgood : ¬ FailingInit n) :
    decidedStatus v n = .ok := by rw [decidedStatus, if_neg hr, if_pos hop, if_neg hgood]

theorem decidedStatus_unconfigured (hr : ¬ ReservedEncoding n) (hop : n % 4 ≠ 0) (hv : v = false) :
    decidedStatus v n = .notInit := by rw [decidedStatus, if_neg hr, if_neg hop, if_neg (by simp [hv])]

theorem decidedStatus_configured (hr : ¬ ReservedEncoding n) (hop : n % 4 ≠ 0) (hv : v = true) :
    decidedStatus v n = .ok := by rw [decidedStatus, if_neg hr, if_neg hop, if_pos hv]

end DecidedStatus

/-- INIT finds one of the conditions of R122 exactly when the number of its word says so. -/
theorem initFails_iff_failingInit (n : Nat) :
    (modeOfBits (BitVec.ofNat 3 (n / 4)) = none ∨ widthsLegal Config.build (BitVec.ofNat 6 (n / 2 ^ 5))
      (BitVec.ofNat 6 (n / 2 ^ 11)) (BitVec.ofNat 6 (n / 2 ^ 17)) = false) ↔ FailingInit n := by
  rw [modeOfBits_eq_none_iff, Bool.eq_false_iff, ne_eq, widthsLegal_build]
  simp only [BitVec.toNat_ofNat]
  omega

section Command
variable {s : State} {w : CmdWord} {rest : List HostInput} (hs : s.host = .command w :: rest)
include hs

/-- Whether the decoder rejects a reserved encoding or reads the reserved command, the step is ILLEGAL (R233). -/
theorem step_reserved (h : ReservedEncoding w.toNat) : step s = .next (illegalCommand (acceptCommand rest s)) := by
  obtain ⟨hinitRsvd, -, hpredictRsvd, -, htrainRsvd, -, hreserved⟩ := decode_cases w
  rcases h with hop | ⟨hop, hrsvd⟩ | ⟨hop, hrsvd⟩ | ⟨hop, hrsvd⟩
  · exact step_instr hs (hreserved hop)
  · exact step_illegal hs (hinitRsvd hop hrsvd)
  · exact step_illegal hs (hpredictRsvd hop hrsvd)
  · exact step_illegal hs (htrainRsvd hop hrsvd)

/-- A step on a command is one response, with the STATUS that the order of R235 decides. -/
theorem step_eq_respond_decidedStatus : ∃ pred b, step s =
    .next (respond (decidedStatus s.block.cfgValid w.toNat) pred { acceptCommand rest s with block := b }) := by
  obtain ⟨-, hinit, -, hpredict, -, htrain, -⟩ := decode_cases w
  by_cases hr : ReservedEncoding w.toNat
  · rw [decidedStatus_reserved hr, step_reserved hs hr]
    exact ⟨.notTaken, s.block, rfl⟩
  have hop : (w.toNat % 4 = 0 ∧ w.toNat / 2 ^ 23 = 0) ∨ (w.toNat % 4 = 1 ∧ w.toNat / 4 % 2 ^ 30 = 0) ∨
    (w.toNat % 4 = 2 ∧ w.toNat / 8 % 2 ^ 29 = 0) := by omega
  rcases hop with ⟨hop, hrsvd⟩ | ⟨hop, hrsvd⟩ | ⟨hop, hrsvd⟩
  · rw [step_instr hs (hinit hop hrsvd), perform_decodeInit]
    by_cases hbad : FailingInit w.toNat
    · rw [decidedStatus_failingInit hr hop hbad, initCommand_eq_configError ((initFails_iff_failingInit _).2 hbad)]
      exact ⟨.notTaken, _, rfl⟩
    · obtain ⟨m, -, -, he⟩ := (initCommand_cases ..).resolve_right
        fun h => hbad ((initFails_iff_failingInit _).1 h.1)
      rw [decidedStatus_init hr hop hbad, he]
      exact ⟨.notTaken, _, rfl⟩
  · rw [step_command hs, runWord_instr (hpredict hop hrsvd)]
    cases hv : s.block.cfgValid with
    | true =>
      rw [decidedStatus_configured hr (by omega) rfl, exec_predict_configured (s := acceptCommand rest s) hv]
      exact ⟨_, s.block, rfl⟩
    | false =>
      rw [decidedStatus_unconfigured hr (by omega) rfl, exec_predict_unconfigured (s := acceptCommand rest s) hv]
      exact ⟨.notTaken, s.block, rfl⟩
  · rw [step_command hs, runWord_instr (htrain hop hrsvd)]
    cases hv : s.block.cfgValid with
    | true =>
      rw [decidedStatus_configured hr (by omega) rfl, exec_train_configured (s := acceptCommand rest s) hv]
      exact ⟨.notTaken, _, rfl⟩
    | false =>
      rw [decidedStatus_unconfigured hr (by omega) rfl, exec_train_unconfigured (s := acceptCommand rest s) hv]
      exact ⟨.notTaken, s.block, rfl⟩

end Command

/-- Settles O6: whichever way the decoder takes the word, the step is the one operation ILLEGAL. -/
theorem reservedEncodingAnswersIllegal : Obligations.ReservedEncodingAnswersIllegal :=
  fun s _ rest hs hr => ⟨_, step_reserved hs hr, rfl, rfl,
    answers_respond (acceptCommand rest s) s.block .illegal .notTaken⟩

/-- Settles O7: the response carries the decided STATUS, and each clause is one branch of the decision. -/
theorem statusIsDecidedInOrder : Obligations.StatusIsDecidedInOrder := by
  intro s w rest hs
  obtain ⟨pred, b, hstep⟩ := step_eq_respond_decidedStatus hs
  refine ⟨_, _, hstep, rfl, ?_⟩
  rw [rspWord_toNat_div_two]
  refine ⟨fun hr => ?reserved, fun hr hop hbad => ?failingInit, fun hr hop hgood => ?init,
    fun hr hop hv => ?unconfigured, fun hr hop hv => ?configured⟩
  case reserved => rw [decidedStatus_reserved hr]; rfl
  case failingInit => rw [decidedStatus_failingInit hr hop hbad]; rfl
  case init => rw [decidedStatus_init hr hop hgood]; rfl
  case unconfigured => rw [decidedStatus_unconfigured hr hop hv]; rfl
  case configured => rw [decidedStatus_configured hr hop hv]; rfl

/-! ### No step stops, and an idle step changes no state of the block (R234, R238, R243) -/

/-- Whatever the host does, a step gives a next state. -/
theorem exists_step_eq_next (s : State) : ∃ t, step s = .next t := by
  rcases hs : s.host with _ | ⟨w | _ | w, rest⟩
  · exact ⟨_, step_idle hs⟩
  · obtain ⟨pred, b, hstep⟩ := step_eq_respond_decidedStatus hs
    exact ⟨_, hstep⟩
  · exact ⟨_, step_rst hs⟩
  · exact ⟨_, step_commandThenRst hs⟩

/-- Settles O10, by induction on the number of steps. -/
theorem noRunEverStops : Obligations.NoRunEverStops := by
  intro n
  induction n with
  | zero => exact fun s => ⟨s, rfl⟩
  | succ n ih =>
    intro s
    obtain ⟨t, hstep⟩ := exists_step_eq_next s
    rw [core_run_succ hstep]
    exact ih t

/-- Settles O11: the step is the operation `idle`. -/
theorem idleBlockHoldsItsState : Obligations.IdleBlockHoldsItsState := fun _ hs => ⟨_, step_idle hs, rfl⟩

/-! ### The sticky error record (R236) -/

@[simp] theorem recordError_some (e : ErrorRecord) (n : Nat) (st : Status) : recordError (some e) n st = some e := rfl

@[simp] theorem recordError_none_ok (n : Nat) : recordError none n .ok = none := rfl

theorem recordError_none_of_ne_ok {st : Status} (h : st ≠ .ok) (n : Nat) : recordError none n st = some ⟨n, st⟩ :=
  if_neg h

theorem statusBits_toNat_eq_zero_iff (st : Status) : (statusBits st).toNat = 0 ↔ st = .ok := by
  cases st <;> decide

/-- Only a command's response can set the record: an idle step and both forms of rst leave it. -/
theorem firstError_of_no_command {s t : State} (hno : ∀ w rest, s.host ≠ .command w :: rest) (ht : step s = .next t) :
    t.firstError = s.firstError := by
  rcases hs : s.host with _ | ⟨w | _ | w, rest⟩
  · rw [step_idle hs] at ht; cases ht; rfl
  · exact absurd hs (hno w rest)
  · rw [step_rst hs] at ht; cases ht; rfl
  · rw [step_commandThenRst hs] at ht; cases ht; rfl

/-- A command's response is recorded under the number of the command. -/
theorem firstError_of_command {s t : State} {w : CmdWord} {rest : List HostInput} (hs : s.host = .command w :: rest)
    (ht : step s = .next t) : ∃ st pred, t.rsp = some (rspWord st pred) ∧
      t.firstError = recordError s.firstError (s.accepted + 1) st := by
  obtain ⟨pred, b, hstep⟩ := step_eq_respond_decidedStatus hs
  rw [hstep] at ht
  cases ht
  exact ⟨_, pred, rfl, rfl⟩

/-- Settles O47: a step on a command records its response, and every other step leaves the record. -/
theorem firstErrorIsSticky : Obligations.FirstErrorIsSticky := by
  intro s t ht
  refine ⟨fun e he => ?kept, fun hnone w rest r hs hr => ?recorded, fun hno => firstError_of_no_command hno ht⟩
  case kept =>
    by_cases hcommand : ∃ w rest, s.host = .command w :: rest
    · obtain ⟨w, rest, hs⟩ := hcommand
      obtain ⟨st, pred, -, hfirst⟩ := firstError_of_command hs ht
      rw [hfirst, he, recordError_some]
    · rw [firstError_of_no_command (fun w rest hs => hcommand ⟨w, rest, hs⟩) ht, he]
  case recorded =>
    obtain ⟨st, pred, hrsp, hfirst⟩ := firstError_of_command hs ht
    obtain rfl : rspWord st pred = r := Option.some.inj (hrsp.symm.trans hr)
    rw [rspWord_toNat_div_two, hfirst, hnone, ne_eq, statusBits_toNat_eq_zero_iff]
    exact ⟨fun hok => by rw [hok, recordError_none_ok], fun herr => ⟨st, recordError_none_of_ne_ok herr _, rfl⟩⟩

end Sys2Proof.Machine
